-- ==== Sys2Proof/Word.lean ====
section
/-! DEFINITION. The word types of the core: everything it stores is one byte (spec 20_memory.md R33). -/

namespace Sys2Proof

/-- A register, a memory cell, an operand or an opcode: 8 bits, read as unsigned (R6). -/
abbrev Byte := BitVec 8

/-- A memory address that is in range by its type: 0 to 255 (R4, R20). -/
abbrev Addr := BitVec 8

/-- A register number, 0 to 7 (R10). -/
abbrev RegIdx := Fin 8

/-- The operand byte that names register `r` (R53). -/
abbrev RegIdx.toByte (r : RegIdx) : Byte := BitVec.ofNat 8 r.val

end Sys2Proof
end

