-- ==== Sys2Proof/Config.lean ====
section
/-! DEFINITION. What is fixed for the life of a core (spec R29): the memory size and the opcode map `OPC`, a
parameter of the machine (R5, R54, R55, D1). The default bytes of the map stand in Decode.lean. -/

namespace Sys2Proof

/-- `MEM_SIZE` (R4). -/
abbrev Config.memSize : Nat := 256

/-- The thirteen mnemonics of the fixed instruction set (R1, R55), in the order of the table. -/
inductive Mnemonic where
  | ldi | prn | hlt | mul | add | push | pop | call | ret | cmp | jmp | jeq | jne
  deriving DecidableEq, Repr

/-- Every mnemonic, in the order of the table of R55. -/
def Mnemonic.all : List Mnemonic :=
  [.ldi, .prn, .hlt, .mul, .add, .push, .pop, .call, .ret, .cmp, .jmp, .jeq, .jne]

/-- How many operand bytes each instruction has: the column `n` of R55. -/
def Mnemonic.operandCount : Mnemonic → Nat
  | .hlt | .ret => 0
  | .prn | .push | .pop | .call => 1
  | .ldi | .mul | .add | .cmp | .jmp | .jeq | .jne => 2

/-- `OPC`, the map from mnemonic to opcode byte (R5, R55). UNVERIFIED: the source gives no byte value (D1), so the
machine takes the map as an argument (log 1). -/
structure OpcodeMap where
  ldi  : Byte
  prn  : Byte
  hlt  : Byte
  mul  : Byte
  add  : Byte
  push : Byte
  pop  : Byte
  call : Byte
  ret  : Byte
  cmp  : Byte
  jmp  : Byte
  jeq  : Byte
  jne  : Byte
  deriving DecidableEq, Repr

/-- The opcode byte of a mnemonic under a map. -/
def OpcodeMap.byte (opc : OpcodeMap) : Mnemonic → Byte
  | .ldi => opc.ldi | .prn => opc.prn | .hlt => opc.hlt | .mul => opc.mul | .add => opc.add
  | .push => opc.push | .pop => opc.pop | .call => opc.call | .ret => opc.ret | .cmp => opc.cmp
  | .jmp => opc.jmp | .jeq => opc.jeq | .jne => opc.jne

/-- `ir[7:6]`, the operand count an opcode byte announces: 0 to 3 (R51, R67). -/
def operandCountOf (ir : Byte) : Nat := (ir.extractLsb' 6 2).toNat

/-- The constraints the source puts on the opcode bytes: the top two bits are the operand count, and the thirteen
bytes are pairwise distinct (R54 a, b). -/
abbrev OpcodeMap.Valid (opc : OpcodeMap) : Prop :=
  (∀ m ∈ Mnemonic.all, operandCountOf (opc.byte m) = m.operandCount) ∧ (Mnemonic.all.map opc.byte).Nodup

end Sys2Proof
end

