-- ==== Sys2Proof/Syntax.lean ====
section
/-! DEFINITION. The instructions: one constructor per row of spec/opcode_table.json, operands in encoding order, each
the whole operand byte as fetched (spec 30_encoding.md R53, R55). -/

namespace Sys2Proof

/-- An instruction with its operand bytes. A register operand is the byte as it stands: one above 7 is an
instruction the machine runs into the error of R70, so it is syntax here and ill-formed in WellFormed.lean. -/
inductive Instr where
  | ldi (reg value : Byte)
  | prn (reg : Byte)
  | hlt
  | mul (regA regB : Byte)
  | add (regA regB : Byte)
  | push (reg : Byte)
  | pop (reg : Byte)
  | call (reg : Byte)
  | ret
  | cmp (regA regB : Byte)
  | jmp (offset reg : Byte)
  | jeq (offset reg : Byte)
  | jne (offset reg : Byte)
  deriving DecidableEq, Repr

/-- The row of the opcode table an instruction belongs to. -/
def Instr.mnemonic : Instr → Mnemonic
  | .ldi _ _ => .ldi
  | .prn _ => .prn
  | .hlt => .hlt
  | .mul _ _ => .mul
  | .add _ _ => .add
  | .push _ => .push
  | .pop _ => .pop
  | .call _ => .call
  | .ret => .ret
  | .cmp _ _ => .cmp
  | .jmp _ _ => .jmp
  | .jeq _ _ => .jeq
  | .jne _ _ => .jne

/-- The operand bytes in address order: `op0`, then `op1` (R50). -/
def Instr.operands : Instr → List Byte
  | .ldi reg value => [reg, value]
  | .prn reg | .push reg | .pop reg | .call reg => [reg]
  | .hlt | .ret => []
  | .mul regA regB | .add regA regB | .cmp regA regB => [regA, regB]
  | .jmp offset reg | .jeq offset reg | .jne offset reg => [offset, reg]

/-- The register operands in the order they are checked, `op0` before `op1` (R70, column "operands" of R55). -/
def Instr.registerOperands : Instr → List Byte
  | .ldi reg _ | .prn reg | .push reg | .pop reg | .call reg => [reg]
  | .hlt | .ret => []
  | .mul regA regB | .add regA regB | .cmp regA regB => [regA, regB]
  | .jmp _ reg | .jeq _ reg | .jne _ reg => [reg]

end Sys2Proof
end

