-- ==== Sys2Proof/WellFormed.lean ====
section
/-! DEFINITION. Which instructions have only legal operands (spec 30_encoding.md R53, R59): the one restriction is
that every byte that names a register is 0 to 7. Offsets and values are any byte. -/

namespace Sys2Proof

/-- Every register operand names a register. -/
def Instr.wellFormed (i : Instr) : Bool :=
  i.registerOperands.all fun b => decide (b.toNat < 8)

end Sys2Proof
end

