-- ==== Sys2Proof/Decode.lean ====
section
/-! DEFINITION. The decoder and the encoder, for any opcode map, and the default map (spec 30_encoding.md,
40_instruction_cycle.md R67 to R69). -/

namespace Sys2Proof

/-- The default opcode map of R55. UNVERIFIED (D1): ten bytes are those of a machine outside the source, the three
jump bytes are the spec's own (log 1). -/
def opcDefault : OpcodeMap where
  ldi  := 0x82
  prn  := 0x47
  hlt  := 0x01
  mul  := 0xA2
  add  := 0xA0
  push := 0x45
  pop  := 0x46
  call := 0x50
  ret  := 0x11
  cmp  := 0xA7
  jmp  := 0x94
  jeq  := 0x95
  jne  := 0x96

/-- Recognition of an opcode byte: all eight bits are compared (R51, R68). -/
def recognise (opc : OpcodeMap) (ir : Byte) : Option Mnemonic :=
  Mnemonic.all.find? fun m => opc.byte m == ir

/-- Why a byte sequence is no instruction. -/
inductive DecodeError where
  /-- There is not even an opcode byte. -/
  | noOpcode
  /-- The first byte is not one of the thirteen (R57, R58). -/
  | unknownOpcode (ir : Byte)
  /-- The opcode is recognised and its `k`-th operand byte, 1 or 2, is missing (R69). -/
  | missingOperand (k : Nat)
  deriving DecidableEq, Repr

/-- Format F0 (R52): no operand. -/
def decodeF0 (i : Instr) (rest : List Byte) : Except DecodeError (Instr × List Byte) :=
  .ok (i, rest)

/-- Format F1 (R52): one operand byte. -/
def decodeF1 (f : Byte → Instr) : List Byte → Except DecodeError (Instr × List Byte)
  | op0 :: rest => .ok (f op0, rest)
  | [] => .error (.missingOperand 1)

/-- Format F2 (R52): two operand bytes. -/
def decodeF2 (f : Byte → Byte → Instr) : List Byte → Except DecodeError (Instr × List Byte)
  | op0 :: op1 :: rest => .ok (f op0 op1, rest)
  | [_] => .error (.missingOperand 2)
  | [] => .error (.missingOperand 1)

/-- The operand bytes of a recognised instruction, and what follows them (R53, R55). -/
def decodeOperands (m : Mnemonic) (rest : List Byte) : Except DecodeError (Instr × List Byte) :=
  match m with
  | .ldi => decodeF2 .ldi rest
  | .prn => decodeF1 .prn rest
  | .hlt => decodeF0 .hlt rest
  | .mul => decodeF2 .mul rest
  | .add => decodeF2 .add rest
  | .push => decodeF1 .push rest
  | .pop => decodeF1 .pop rest
  | .call => decodeF1 .call rest
  | .ret => decodeF0 .ret rest
  | .cmp => decodeF2 .cmp rest
  | .jmp => decodeF2 .jmp rest
  | .jeq => decodeF2 .jeq rest
  | .jne => decodeF2 .jne rest

/-- The decoder under an opcode map: total on any bytes, the opcode recognised before any operand is looked at
(R68, D6). It answers the instruction and the bytes after it. -/
def decodeWith (opc : OpcodeMap) : List Byte → Except DecodeError (Instr × List Byte)
  | [] => .error .noOpcode
  | ir :: rest =>
    match recognise opc ir with
    | none => .error (.unknownOpcode ir)
    | some m => decodeOperands m rest

/-- The decoder under the default map. -/
def decode (bytes : List Byte) : Except DecodeError (Instr × List Byte) :=
  decodeWith opcDefault bytes

/-- The bytes of an instruction in address order, opcode first (R33, R50). -/
def encodeWith (opc : OpcodeMap) (i : Instr) : List Byte :=
  opc.byte i.mnemonic :: i.operands

/-- The encoder under the default map. -/
def encode (i : Instr) : List Byte :=
  encodeWith opcDefault i

/-- The first `n` bytes of the number `w`, least significant byte first (the host's numbering of a row's bits). -/
def bytesOfNat : Nat → Nat → List Byte
  | 0, _ => []
  | n + 1, w => BitVec.ofNat 8 w :: bytesOfNat n (w / 256)

/-- The bytes of a table word: `nbits` bits of `w`, zeros above them, up to the longest instruction, 3 bytes. -/
def tableWordBytes (nbits w : Nat) : List Byte :=
  bytesOfNat 3 (w % 2 ^ nbits)

/-- The instruction the decoder reads from a table word. -/
def decodeTableWord (nbits w : Nat) : Option Instr :=
  match decode (tableWordBytes nbits w) with
  | .ok (i, _) => some i
  | .error _ => none

end Sys2Proof
end

