-- ==== Sys2Proof/Machine/State.lean ====
section
/-! DEFINITION. The state of the core as plain data, the reasons a step can stop, and the state reset leaves (spec
10_state.md). -/

namespace Sys2Proof.Machine

/-- `hr_kind`: what kind of access was out of bounds (spec R112). -/
inductive OobKind where
  | fetch
  | operand
  | register
  | returnAddress
  deriving DecidableEq, Repr

/-- A fatal error with the information it carries beside the `pc` (R110 to R112). -/
inductive FatalError where
  | unknownInstruction (opcode : Byte)
  | outOfBoundsAddress (kind : OobKind) (value : Int)
  deriving DecidableEq, Repr

/-- The halt reason register `hr` (R22) together with its information fields `hr_pc`, `hr_opcode`, `hr_kind` and
`hr_value` (R23), which exist exactly with the value that gives them a meaning (R28; log 3). -/
inductive HaltReason where
  /-- `NONE`: the core can take a step. -/
  | none
  /-- `HLT`: an HLT instruction was executed. -/
  | hlt
  /-- `UNKNOWN_INSTRUCTION`, with `hr_pc` and `hr_opcode`. -/
  | unknownInstruction (pc : Int) (opcode : Byte)
  /-- `OUT_OF_BOUNDS`, with `hr_pc`, `hr_kind` and `hr_value`. -/
  | outOfBounds (pc : Int) (kind : OobKind) (value : Int)
  deriving DecidableEq, Repr

/-- An event on the diagnostic stream (R25). -/
inductive DiagEvent where
  | stackUnderflow (pc : Int)
  | unknownInstruction (pc : Int) (opcode : Byte)
  | outOfBoundsAddress (pc : Int) (kind : OobKind) (value : Int)
  deriving DecidableEq, Repr

/-- Memory as the cells that differ from the reset contents, in one canonical form (`Memory.wf`; log 4). -/
abbrev Memory := List Host.Cell

/-- Everything the spec gives the machine (10_state.md; INVENTORY.md, State). -/
structure State where
  /-- `x[0]` to `x[7]`; entry 7 is also `SP` (R10, R12). -/
  x    : Vector Byte 8
  /-- The program counter, an integer (R14). -/
  pc   : Int
  /-- The flags register `FL` (R17). -/
  fl   : Byte
  /-- The 256 bytes of memory (R20). -/
  mem  : Memory
  /-- The halt reason with its information (R22, R23). -/
  hr   : HaltReason
  /-- The output stream, oldest byte first (R24). -/
  out  : List Byte
  /-- The diagnostic stream, oldest event first (R25). -/
  diag : List DiagEvent
  deriving DecidableEq, Repr

/-- Why the machine, or a transaction of the host, has no next state. Both are the spec's own words; no instruction
raises either. -/
inductive Fault where
  /-- Raised by `cycle` when `hr` is not `NONE`: the core has no step (R75, U11 "stuck"). Safe: the model stops
  where the spec says there is no step (log 2). -/
  | halted (hr : HaltReason)
  /-- Raised by `Session.load` for an image of more than 256 bytes (R133, R114). Safe: nothing is written and no
  run starts (log 9). -/
  | loadError
  deriving DecidableEq, Repr

/-- What is not accepted. -/
inductive Refusal where
  /-- Raised by an arm of `exec` for an instruction with no meaning yet; no arm does. Safe. -/
  | notModelled (mnemonic : String)
  /-- Raised by `Session.load` in every phase but the one reset leaves: before the first reset, a second time, or
  once a run has started (R47, R131, R136, U12 "refuse", D16). Safe: no such transition exists (log 9). -/
  | loadNotAfterReset
  /-- Raised by `Session.reset` while a run is in progress (R130, R136, U12). Safe: no such transition exists
  (log 17). -/
  | resetDuringRun
  /-- Raised by `Session.run` on a core that was never reset (R131, U9) or whose run is in progress (R134). Safe: no
  such transition exists (log 17). -/
  | runNotAccepted
  /-- Raised by `Session.step` while no run is in progress: the core takes steps only in a run (R74). Safe: no such
  transition exists (log 17). -/
  | notRunning
  deriving DecidableEq, Repr

/-- The three outcomes of one step of this machine. -/
abbrev Outcome := Host.Outcome State Fault Refusal

/-- The state after the reset transaction: every value is the spec's (R28, R130). -/
def State.reset : State where
  x    := #v[0, 0, 0, 0, 0, 0, 0, 0]
  pc   := 0
  fl   := 0x00
  mem  := []
  hr   := .none
  out  := []
  diag := []

end Sys2Proof.Machine
end

