-- ==== Sys2Proof/Machine/Ops.lean ====
section
/-! DEFINITION. The named operations every meaning is built from: memory, registers, program counter, streams, the
stack pointer logic, and the entry of an error (spec 20_memory.md, 43_stack.md R90, 60_exceptions.md). -/

namespace Sys2Proof.Machine

/-! ## Memory (R30 to R32) -/

/-- What an unlisted address reads as: memory is zeroed on reset (R28, R130). -/
def Memory.unlisted : Byte := 0x00

/-- The byte at an address. -/
def Memory.read : Memory → Nat → Byte
  | [], _ => Memory.unlisted
  | (b, v) :: m, a => if a = b then v else Memory.read m a

/-- Memory with no cell listed for an address. -/
def Memory.erase : Memory → Nat → Memory
  | [], _ => []
  | (b, v) :: m, a => if a = b then Memory.erase m a else (b, v) :: Memory.erase m a

/-- A cell put in its place by address. -/
def Memory.insert : Memory → Nat → Byte → Memory
  | [], a, v => [(a, v)]
  | (b, w) :: m, a, v => if a < b then (a, v) :: (b, w) :: m else (b, w) :: Memory.insert m a v

/-- Memory after a store; storing what an unlisted address reads as leaves the address unlisted. -/
def Memory.write (m : Memory) (a : Nat) (v : Byte) : Memory :=
  if v = Memory.unlisted then m.erase a else (m.erase a).insert a v

/-- The canonical form: addresses strictly rising and below 256, no cell equal to what an unlisted address reads
as, so that equal memories are equal data. -/
def Memory.wf (m : Memory) : Bool :=
  decide (m.Pairwise fun c d => c.1 < d.1) &&
    m.all fun c => decide (c.1 < Config.memSize) && decide (c.2 ≠ Memory.unlisted)

/-- An address as the machine forms it, checked before it is presented to memory: never masked (R32, C8). -/
def addr? (a : Int) : Option Addr :=
  if 0 ≤ a ∧ a ≤ 255 then some (BitVec.ofInt 8 a) else none

/-- `MemRead(a, 1)` (R30). -/
def State.memRead (a : Addr) (s : State) : Byte := s.mem.read a.toNat

/-- `MemWrite(a, 1, v)` (R31). -/
def State.memWrite (a : Addr) (v : Byte) (s : State) : State :=
  { s with mem := s.mem.write a.toNat v }

/-- A byte sequence stored at ascending addresses from an integer address, as far as the addresses exist. -/
def State.storeBytes : List Byte → Int → State → State
  | [], _, s => s
  | v :: vs, a, s =>
    match addr? a with
    | none => s
    | some p => State.storeBytes vs (a + 1) (s.memWrite p v)

/-- Up to `n` bytes at ascending addresses from an integer address, as far as the addresses exist: what an
instruction fetch can see (R66, R69). Reads have no side effects (R30), so the bytes an instruction does not use
are as good as unread (log 7). -/
def State.fetchBytes : Nat → Int → State → List Byte
  | 0, _, _ => []
  | n + 1, a, s =>
    match addr? a with
    | none => []
    | some p => s.memRead p :: State.fetchBytes n (a + 1) s

/-! ## Registers (R10 to R12) -/

/-- `x[r]`. -/
def State.reg (r : RegIdx) (s : State) : Byte := s.x[r]

/-- `x[r] <- v`. -/
def State.setReg (r : RegIdx) (v : Byte) (s : State) : State :=
  { s with x := s.x.set r v }

/-- `SP_REG` (R4). -/
def spReg : RegIdx := 7

/-- The empty-stack sentinel `STACK_TOP` (R4). -/
def stackTop : Byte := 0xF4

/-- `SP`, another name for `x[7]` (R12). -/
def State.sp (s : State) : Byte := s.reg spReg

/-! ## The program counter (R14, R72) -/

/-- The uniform advance `pc <- pc + 1 + n` for an instruction of `n` operand bytes. -/
def State.advance (n : Nat) (s : State) : State :=
  { s with pc := s.pc + 1 + n }

/-- `pc <- t`, exact (R14). -/
def State.jumpTo (t : Int) (s : State) : State :=
  { s with pc := t }

/-! ## The flags register, the streams and HLT (R17, R22, R24, R25) -/

/-- `FL <- v`, all eight bits. -/
def State.setFl (v : Byte) (s : State) : State :=
  { s with fl := v }

/-- `emit_out(v)`. -/
def State.emitOut (v : Byte) (s : State) : State :=
  { s with out := s.out ++ [v] }

/-- `emit_diag(e)`. -/
def State.emitDiag (e : DiagEvent) (s : State) : State :=
  { s with diag := s.diag ++ [e] }

/-- `hr <- h`. -/
def State.setHr (h : HaltReason) (s : State) : State :=
  { s with hr := h }

/-! ## The stack pointer logic (R90) -/

/-- `sp_init_if_zero`. -/
def State.spInitIfZero (s : State) : State :=
  if s.sp = 0 then s.setReg spReg stackTop else s

/-- `sp_decrement`, modulo 256. -/
def State.spDecrement (s : State) : State :=
  s.setReg spReg (s.sp - 1)

/-- `sp_increment`, modulo 256 (D10). -/
def State.spIncrement (s : State) : State :=
  s.setReg spReg (s.sp + 1)

/-- What PUSH and CALL do to SP before they store: initialise it if it is 0, then decrement it. -/
def State.spForPush (s : State) : State :=
  s.spInitIfZero.spDecrement

/-! ## Errors (R110 to R118) -/

/-- What `hr` and its fields hold after a fatal error raised at `pc` (R111, R112). -/
def FatalError.haltReason (pc : Int) : FatalError → HaltReason
  | .unknownInstruction opcode => .unknownInstruction pc opcode
  | .outOfBoundsAddress kind value => .outOfBounds pc kind value

/-- The event a fatal error appends to the diagnostic stream (R25). -/
def FatalError.event (pc : Int) : FatalError → DiagEvent
  | .unknownInstruction opcode => .unknownInstruction pc opcode
  | .outOfBoundsAddress kind value => .outOfBoundsAddress pc kind value

/-- Taking a fatal error, the one entry every fatal error goes through (R116): `hr` and its fields written, the
event appended, nothing else changed. There is no return from it (R119). -/
def State.raiseFatal (e : FatalError) (s : State) : State :=
  (s.setHr (e.haltReason s.pc)).emitDiag (e.event s.pc)

/-- Taking the one recoverable error (R113, R117): the event is appended and nothing else changes. -/
def State.raiseStackUnderflow (s : State) : State :=
  s.emitDiag (.stackUnderflow s.pc)

/-! ## What the host reads of `hr` and `diag` (R22, R23, R25) -/

/-- The numeric value of `hr` (R22); only distinctness means anything (U23). -/
def HaltReason.code : HaltReason → Nat
  | .none => 0
  | .hlt => 1
  | .unknownInstruction _ _ => 2
  | .outOfBounds _ _ _ => 3

/-- `hr_pc`. -/
def HaltReason.hrPc : HaltReason → Option Int
  | .none | .hlt => Option.none
  | .unknownInstruction pc _ => some pc
  | .outOfBounds pc _ _ => some pc

/-- `hr_opcode`. -/
def HaltReason.hrOpcode : HaltReason → Option Byte
  | .none | .hlt | .outOfBounds _ _ _ => Option.none
  | .unknownInstruction _ opcode => some opcode

/-- `hr_kind`. -/
def HaltReason.hrKind : HaltReason → Option OobKind
  | .none | .hlt | .unknownInstruction _ _ => Option.none
  | .outOfBounds _ kind _ => some kind

/-- `hr_value`. -/
def HaltReason.hrValue : HaltReason → Option Int
  | .none | .hlt | .unknownInstruction _ _ => Option.none
  | .outOfBounds _ _ value => some value

/-- Whether `hr` holds a fatal error. -/
def HaltReason.isFatal (h : HaltReason) : Bool := h.hrPc.isSome

/-- Whether an event is that of a fatal error. -/
def DiagEvent.isFatal : DiagEvent → Bool
  | .stackUnderflow _ => false
  | .unknownInstruction _ _ | .outOfBoundsAddress _ _ _ => true

/-- The fatal events a diagnostic stream holds when `hr` has this value: the same information (R23). -/
def HaltReason.fatalEvents : HaltReason → List DiagEvent
  | .none | .hlt => []
  | .unknownInstruction pc opcode => [.unknownInstruction pc opcode]
  | .outOfBounds pc kind value => [.outOfBoundsAddress pc kind value]

/-- The count of recoverable errors: the number of `StackUnderflow` events (R25). -/
def State.underflowCount (s : State) : Nat :=
  s.diag.countP fun e => !e.isFatal

end Sys2Proof.Machine
end

