-- ==== Sys2Proof/Machine/Operands.lean ====
section
/-! DEFINITION. The operand forms: register operands with their range check (spec R53, R70) and the target of the
three jumps (R101). An immediate value and an offset are the operand byte as it stands (R53). -/

namespace Sys2Proof.Machine

/-- The register an operand byte names: all eight bits are checked, nothing is masked (R53, D7). -/
def regIdx? (b : Byte) : Option RegIdx :=
  if h : b.toNat < 8 then some ⟨b.toNat, h⟩ else none

/-- Run a rule on the register an operand byte names, or raise `OutOfBoundsAddress` of kind `REGISTER` before
anything is written (R70, R118). -/
def withReg (b : Byte) (s : State) (rule : RegIdx → State) : State :=
  match regIdx? b with
  | some r => rule r
  | none => s.raiseFatal (.outOfBoundsAddress .register b.toNat)

/-- Two register operands: `op0` is checked before `op1` (R70). -/
def withRegs (a b : Byte) (s : State) (rule : RegIdx → RegIdx → State) : State :=
  withReg a s fun ra => withReg b s fun rb => rule ra rb

/-- `x[op1] - op0 + 2`, exact integer arithmetic (R101). -/
def jumpTarget (base offset : Byte) : Int :=
  (base.toNat : Int) - (offset.toNat : Int) + 2

/-- `pc + 2`, the return address of a CALL (R95). -/
def returnAddress (s : State) : Int := s.pc + 2

end Sys2Proof.Machine
end

