-- ==== Sys2Proof/Machine/Alu.lean ====
section
/-! DEFINITION. The ALU: MUL and ADD (spec 42_alu.md). -/

namespace Sys2Proof.Machine

/-- `a + b mod 256` (R87). -/
def aluAdd (a b : Byte) : Byte := BitVec.ofNat 8 ((a.toNat + b.toNat) % 256)

/-- `a * b mod 256` (R86). -/
def aluMul (a b : Byte) : Byte := BitVec.ofNat 8 ((a.toNat * b.toNat) % 256)

/-- The ALU contract (R85): both inputs are read, then the first register named is written, nothing else. -/
def aluWriteBack (op : Byte → Byte → Byte) (regA regB : Byte) (s : State) : State :=
  withRegs regA regB s fun ra rb => (s.setReg ra (op (s.reg ra) (s.reg rb))).advance 2

/-- MUL (R86). -/
def execMul (regA regB : Byte) (s : State) : Outcome :=
  .next (aluWriteBack aluMul regA regB s)

/-- ADD (R87). -/
def execAdd (regA regB : Byte) (s : State) : Outcome :=
  .next (aluWriteBack aluAdd regA regB s)

end Sys2Proof.Machine
end

