-- ==== Sys2Proof/Machine/Flags.lean ====
section
/-! DEFINITION. The flags register: what CMP writes and what JEQ and JNE read (spec R17 to R19, R100). -/

namespace Sys2Proof.Machine

/-- Bit 0, E. -/
def flEqual : Byte := 0x01

/-- Bit 1, G. -/
def flGreater : Byte := 0x02

/-- Bit 2, L. -/
def flLess : Byte := 0x04

/-- What CMP leaves in `FL`: an unsigned comparison in the order equal, less, greater (R100, D8, D9). -/
def compareFlags (a b : Byte) : Byte :=
  if a = b then flEqual
  else if a.toNat < b.toNat then flLess
  else flGreater

/-- `FL[0] = 1`, the only bit any instruction reads (R18). -/
def State.equalBit (s : State) : Bool := s.fl.getLsbD 0

end Sys2Proof.Machine
end

