-- ==== Sys2Proof/Machine/CompareJump.lean ====
section
/-! DEFINITION. CMP, JMP, JEQ, JNE (spec 45_cmp_jumps.md). -/

namespace Sys2Proof.Machine

/-- CMP (R100). -/
def execCmp (regA regB : Byte) (s : State) : Outcome :=
  .next (withRegs regA regB s fun ra rb => (s.setFl (compareFlags (s.reg ra) (s.reg rb))).advance 2)

/-- A jump with a condition, common to the three: taken, `pc` is the target (R101), else the uniform advance. -/
def jumpIf (taken : Bool) (offset reg : Byte) (s : State) : State :=
  withReg reg s fun r => if taken then s.jumpTo (jumpTarget (s.reg r) offset) else s.advance 2

/-- JMP (R102). -/
def execJmp (offset reg : Byte) (s : State) : Outcome :=
  .next (jumpIf true offset reg s)

/-- JEQ (R103). -/
def execJeq (offset reg : Byte) (s : State) : Outcome :=
  .next (jumpIf s.equalBit offset reg s)

/-- JNE (R104). -/
def execJne (offset reg : Byte) (s : State) : Outcome :=
  .next (jumpIf (!s.equalBit) offset reg s)

end Sys2Proof.Machine
end

