-- ==== Sys2Proof/Machine/LoadPrintHalt.lean ====
section
/-! DEFINITION. LDI, PRN, HLT (spec 41_ldi_prn_hlt.md). -/

namespace Sys2Proof.Machine

/-- LDI (R80). -/
def execLdi (reg value : Byte) (s : State) : Outcome :=
  .next (withReg reg s fun r => (s.setReg r value).advance 2)

/-- PRN (R81). -/
def execPrn (reg : Byte) (s : State) : Outcome :=
  .next (withReg reg s fun r => (s.emitOut (s.reg r)).advance 1)

/-- HLT (R82): the uniform advance applies to it too (D12). -/
def execHlt (s : State) : Outcome :=
  .next ((s.setHr .hlt).advance 0)

end Sys2Proof.Machine
end

