-- ==== Sys2Proof/Machine/Stack.lean ====
section
/-! DEFINITION. PUSH and POP (spec 43_stack.md). -/

namespace Sys2Proof.Machine

/-- The store of PUSH, in the state after SP was initialised and decremented: the register is read there (R92 b). -/
def storeAtSp (v : Byte) (s : State) : State := s.memWrite s.sp v

/-- POP finds the stack empty: SP is 0 or the sentinel (R93). -/
def stackEmpty (s : State) : Bool := s.sp == 0 || s.sp == stackTop

/-- PUSH (R92). -/
def execPush (reg : Byte) (s : State) : Outcome :=
  .next (withReg reg s fun r => (storeAtSp (s.spForPush.reg r) s.spForPush).advance 1)

/-- POP (R93): the loaded byte is written first, then `x[7]` as it is then is incremented. -/
def execPop (reg : Byte) (s : State) : Outcome :=
  .next (withReg reg s fun r =>
    if stackEmpty s then s.raiseStackUnderflow.advance 1
    else ((s.setReg r (s.memRead s.sp)).spIncrement).advance 1)

end Sys2Proof.Machine
end

