-- ==== Sys2Proof/Machine/Subroutine.lean ====
section
/-! DEFINITION. CALL and RET (spec 44_call_ret.md). -/

namespace Sys2Proof.Machine

/-- CALL (R95): the return address is checked before any write (D11, R118); the target is read after SP moved. -/
def execCall (reg : Byte) (s : State) : Outcome :=
  .next (withReg reg s fun r =>
    if returnAddress s > 255 then s.raiseFatal (.outOfBoundsAddress .returnAddress (returnAddress s))
    else (storeAtSp (BitVec.ofInt 8 (returnAddress s)) s.spForPush).jumpTo (s.spForPush.reg r).toNat)

/-- RET (R96): no emptiness test. -/
def execRet (s : State) : Outcome :=
  .next (s.spIncrement.jumpTo (s.memRead s.sp).toNat)

end Sys2Proof.Machine
end

