-- ==== Sys2Proof/Machine/Cycle.lean ====
section
/-! DEFINITION. The instruction cycle under any opcode map: fetch, recognise, fetch operands, execute (spec
40_instruction_cycle.md R65), reset, and the run of steps (R74). The host's transactions stand in Session.lean. -/

namespace Sys2Proof.Machine

/-- The fatal error of a fetch that finds no instruction (R66, R68, R69). -/
def fetchError (s : State) : DecodeError → FatalError
  | .noOpcode => .outOfBoundsAddress .fetch s.pc
  | .unknownOpcode ir => .unknownInstruction ir
  | .missingOperand k => .outOfBoundsAddress .operand (s.pc + k)

/-- The bytes at `pc` an instruction can be made of: at most three, and none beyond address 255. -/
def window (s : State) : List Byte := s.fetchBytes 3 s.pc

/-- Fetch and decode the instruction at `pc`. -/
def fetchInstr (opc : OpcodeMap) (s : State) : Except FatalError Instr :=
  match decodeWith opc (window s) with
  | .ok (i, _) => .ok i
  | .error e => .error (fetchError s e)

/-- One step of the core under an opcode map (R65). It exists only while `hr` is `NONE` (R75). -/
def cycle (opc : OpcodeMap) (s : State) : Outcome :=
  match s.hr with
  | .none =>
    match fetchInstr opc s with
    | .ok i => exec i s
    | .error e => .next (s.raiseFatal e)
  | h => .fault (.halted h)

/-- `reset`, applied in any state (R130). -/
def resetTransaction (_ : State) : State := State.reset

/-- The steps of a run, cut after `k` because a run need not end (R74, R134; log 15): it stops by itself in a
terminal state, and the halt reason `run` returns is the field `hr`. -/
def runFor (opc : OpcodeMap) : Nat → State → State
  | 0, s => s
  | k + 1, s =>
    match cycle opc s with
    | .next t => runFor opc k t
    | _ => s

end Sys2Proof.Machine
end

