-- ==== Sys2Proof/Machine/Step.lean ====
section
/-! DEFINITION. One step of the machine under the default opcode map, and the host's placing of one instruction. -/

namespace Sys2Proof.Machine

/-- One step (spec R65) under the default opcode map (R55). -/
def step (s : State) : Host.Outcome State Fault Refusal :=
  cycle opcDefault s

/-- The state with a table word's instruction stored at `pc`, where the next step fetches: it stands for the host's
`load` of an image and the start of its run (R133, R134; log 5). -/
def State.withFetchWord (s : State) (nbits w : Nat) : State :=
  s.storeBytes (tableWordBytes nbits w) s.pc

end Sys2Proof.Machine
end

