-- ==== Sys2Proof/Machine/Session.lean ====
section
/-! DEFINITION. A core together with where it stands in the host's order of transactions: reset, then one load, then a
run, and what each transaction does in each place (spec 70_reset_and_hazards.md R130 to R136, 20_memory.md R47). -/

namespace Sys2Proof.Machine

/-- Where a core stands between the host's transactions: bookkeeping of R132 and R136, not state of the core, which
R28 lists without it (log 17). -/
inductive Phase where
  /-- Before the first reset: the state of the core is any value (R131, U9; log 10). -/
  | neverReset
  /-- After a reset and before a load: the one phase in which `load` is accepted (R132). -/
  | ready
  /-- After the one load. -/
  | loaded
  /-- A run is in progress: the host has nothing to do but wait (R47, R134). -/
  | running
  /-- The run has ended (R76). -/
  | ended
  deriving DecidableEq, Repr

/-- A core and its phase. -/
structure Session where
  core  : State
  phase : Phase
  deriving DecidableEq, Repr

/-- The outcomes of a transaction. -/
abbrev SessionOutcome := Host.Outcome Session Fault Refusal

/-- The phase of a running core after a step: the run ends in the first state with `hr` not `NONE` (R76). -/
def phaseAfterStep (s : State) : Phase :=
  match s.hr with
  | .none => .running
  | _ => .ended

/-- `reset` (R130): accepted in every phase, a terminal one included, but not during a run. -/
def Session.reset (c : Session) : SessionOutcome :=
  match c.phase with
  | .running => .refused .resetDuringRun
  | .neverReset | .ready | .loaded | .ended => .next ⟨resetTransaction c.core, .ready⟩

/-- `load(bytes)` (R133): accepted once, between reset and the start of the run (R47, R132, D16); an image of at most
256 bytes is placed from address 0, a longer one is `LoadError` and nothing is written. -/
def Session.load (image : List Byte) (c : Session) : SessionOutcome :=
  match c.phase with
  | .ready =>
    if image.length ≤ Config.memSize then .next ⟨c.core.storeBytes image 0, .loaded⟩ else .fault .loadError
  | .neverReset | .loaded | .running | .ended => .refused .loadNotAfterReset

/-- `run` (R134): it starts the steps, with the empty image where nothing was loaded (log 18), and returns at once in
a terminal state (R75, D17). -/
def Session.run (c : Session) : SessionOutcome :=
  match c.phase with
  | .ready | .loaded => .next { c with phase := .running }
  | .ended => .next c
  | .neverReset | .running => .refused .runNotAccepted

/-- One step of the core, which happens only in a run (R74). -/
def Session.step (opc : OpcodeMap) (c : Session) : SessionOutcome :=
  match c.phase with
  | .running =>
    match cycle opc c.core with
    | .next t => .next ⟨t, phaseAfterStep t⟩
    | .fault f => .fault f
    | .refused r => .refused r
  | .neverReset | .ready | .loaded | .ended => .refused .notRunning

/-- The run in progress, cut after `k` steps (log 15). -/
def Session.runFor (opc : OpcodeMap) : Nat → Session → Session
  | 0, c => c
  | k + 1, c =>
    match c.step opc with
    | .next d => d.runFor opc k
    | _ => c

/-- What the host may read of the state: nothing during a run or before the first reset, all of it otherwise (R47,
R131, R135, U12). -/
def Session.hostRead (c : Session) : Option State :=
  match c.phase with
  | .neverReset | .running => none
  | .ready | .loaded | .ended => some c.core

/-- The halt reason `run` returns, once it has returned (R134, R135). -/
def Session.haltReason (c : Session) : Option HaltReason :=
  match c.phase with
  | .ended => some c.core.hr
  | .neverReset | .ready | .loaded | .running => none

/-- What can happen to a core: the host's three transactions, and a step of the core itself. -/
inductive SessionEvent where
  | reset
  | load (image : List Byte)
  | run
  | step
  deriving DecidableEq, Repr

/-- The outcome of an event. -/
def Session.apply (opc : OpcodeMap) (e : SessionEvent) (c : Session) : SessionOutcome :=
  match e with
  | .reset => c.reset
  | .load image => c.load image
  | .run => c.run
  | .step => c.step opc

end Sys2Proof.Machine
end

