-- ==== Sys2Proof/Machine/Arbiter.lean ====
section
/-! DEFINITION. The read/write arbiter: the memory accesses of a step, by class and in order (spec 20_memory.md R35,
R40, R41; D19). The accesses are a function of the state a step begins in, not state of their own
(log 14). -/

namespace Sys2Proof.Machine

/-- The five kinds of access that share the one port (R40). -/
inductive AccessClass where
  | ifetch
  | ofetch
  | dread
  | dwrite
  | load
  deriving DecidableEq, Repr

/-- The direction of a class (R40). -/
def AccessClass.isWrite : AccessClass → Bool
  | .ifetch | .ofetch | .dread => false
  | .dwrite | .load => true

/-- One access: always one byte wide (R30, R31, R35). -/
structure Access where
  cls  : AccessClass
  addr : Addr
  deriving DecidableEq, Repr

/-- The OFETCH accesses of `n` operand bytes from an address on, up to the top of memory (R69). -/
def operandAccesses : Nat → Int → List Access
  | 0, _ => []
  | n + 1, a =>
    match addr? a with
    | none => []
    | some p => ⟨.ofetch, p⟩ :: operandAccesses n (a + 1)

/-- The fetch accesses of a step (R66, R69): none for an operand of an unrecognised opcode (R68). -/
def fetchAccesses (opc : OpcodeMap) (s : State) : List Access :=
  match addr? s.pc with
  | none => []
  | some p =>
    ⟨.ifetch, p⟩ ::
      match recognise opc (s.memRead p) with
      | none => []
      | some m => operandAccesses m.operandCount (s.pc + 1)

/-- The data access of an instruction that passed its checks (R35, R40): at most one. -/
def dataAccess (i : Instr) (s : State) : List Access :=
  if i.wellFormed then
    match i with
    | .push _ => [⟨.dwrite, s.spForPush.sp⟩]
    | .pop _ => if stackEmpty s then [] else [⟨.dread, s.sp⟩]
    | .call _ => if returnAddress s > 255 then [] else [⟨.dwrite, s.spForPush.sp⟩]
    | .ret => [⟨.dread, s.sp⟩]
    | .ldi _ _ | .prn _ | .hlt | .mul _ _ | .add _ _ | .cmp _ _ | .jmp _ _ | .jeq _ _ | .jne _ _ => []
  else []

/-- The data access of the instruction a step fetches; none where the fetch or a check failed. -/
def dataAccesses (opc : OpcodeMap) (s : State) : List Access :=
  match fetchInstr opc s with
  | .ok i => dataAccess i s
  | .error _ => []

/-- Every access of one step, in order (R41); a halted core makes none (R75). -/
def stepAccesses (opc : OpcodeMap) (s : State) : List Access :=
  match s.hr with
  | .none => fetchAccesses opc s ++ dataAccesses opc s
  | _ => []

/-- The LOAD accesses of a `load`, ascending from address 0 (R40, R133): none where it is refused or is `LoadError`, so
none while the core is running and none beyond address 255. -/
def loadAccesses (image : List Byte) (c : Session) : List Access :=
  match c.load image with
  | .next _ => (List.range image.length).map fun k => ⟨.load, BitVec.ofNat 8 k⟩
  | .fault _ | .refused _ => []

end Sys2Proof.Machine
end

