-- ==== Sys2Proof/Safety.lean ====
section
/-! DEFINITION. What statements are made of: what an instruction leaves unchanged, what a run is, how it can end, and
the invariant every step keeps. -/

namespace Sys2Proof.Machine

/-! ## Frames -/

/-- Every register not listed holds what it held. -/
def RegsKeptBut (changed : List RegIdx) (s t : State) : Prop :=
  ∀ q : RegIdx, q ∉ changed → t.reg q = s.reg q

/-- Every byte of memory reads as it did. -/
def MemKept (s t : State) : Prop :=
  ∀ a : Addr, t.memRead a = s.memRead a

/-- Every byte of memory but the one at `stored` reads as it did. -/
def MemKeptBut (stored : Addr) (s t : State) : Prop :=
  ∀ a : Addr, a ≠ stored → t.memRead a = s.memRead a

/-- The flags register, the halt reason and both streams are as they were. -/
def StatusKept (s t : State) : Prop :=
  t.fl = s.fl ∧ t.hr = s.hr ∧ t.out = s.out ∧ t.diag = s.diag

/-- `t` is `s` with the fatal error `e` taken, field by field (spec R116): `hr` with its information fields
written, one event appended, all else as it was. -/
def TookFatal (e : FatalError) (s t : State) : Prop :=
  t.hr = e.haltReason s.pc ∧ t.diag = s.diag ++ [e.event s.pc] ∧
    t.pc = s.pc ∧ t.fl = s.fl ∧ t.out = s.out ∧ RegsKeptBut [] s t ∧ MemKept s t

/-! ## Where an instruction stands in memory -/

/-- The bytes from integer address `a` on are these, all of them inside memory. -/
def BytesAt : List Byte → Int → State → Prop
  | [], _, _ => True
  | v :: vs, a, s => (∃ p : Addr, addr? a = some p ∧ s.memRead p = v) ∧ BytesAt vs (a + 1) s

/-- Wherever the opcode byte of `m` stands so high that its operand bytes would pass address 255, from `lowest` on, the
step is the fatal error of kind OPERAND with address 256: the part "from the step" of each instruction's rule. -/
def FaultsFromOn (lowest : Int) (m : Mnemonic) : Prop :=
  ∀ opc : OpcodeMap, opc.Valid → ∀ (s : State) (p : Addr), s.hr = .none → s.pc = p.toNat → lowest ≤ s.pc →
    s.memRead p = opc.byte m →
    ∃ t, cycle opc s = .next t ∧ TookFatal (.outOfBoundsAddress .operand 256) s t

/-- Whenever `i` stands at `pc` of a running core, under any opcode map that meets R54, the step answers `t`. -/
def StepAnswers (i : Instr) (s t : State) : Prop :=
  ∀ opc : OpcodeMap, opc.Valid → s.hr = .none → BytesAt (encodeWith opc i) s.pc s → cycle opc s = .next t

/-! ## Runs (R74 to R76, R134) -/

/-- Zero or more steps of the cycle. -/
inductive Steps (opc : OpcodeMap) : State → State → Prop where
  | refl (s : State) : Steps opc s s
  | head {s t u : State} : cycle opc s = .next t → Steps opc t u → Steps opc s u

/-- A terminal state: `hr` is not `NONE` (R75). -/
def Terminal (s : State) : Prop := s.hr ≠ .none

/-- A run that "went well" (R120): it ended by HLT and no error was reported. -/
def WentWell (s : State) : Prop := s.hr = .hlt ∧ s.diag = []

/-- A session after a sequence of events, every one of them accepted (R132, R136). -/
inductive SessionTrace (opc : OpcodeMap) : List SessionEvent → Session → Session → Prop where
  | nil (c : Session) : SessionTrace opc [] c c
  | cons {e : SessionEvent} {es : List SessionEvent} {c d f : Session} :
      c.apply opc e = .next d → SessionTrace opc es d f → SessionTrace opc (e :: es) c f

/-- A list of instructions executed one after another, whatever the fetch would read: for statements about a
sequence of PUSHes or a PUSH and a POP. -/
def execAll : List Instr → State → Outcome
  | [], s => .next s
  | i :: is, s =>
    match exec i s with
    | .next t => execAll is t
    | o => o

/-! ## What each rule names, written from the rules' own tables -/

/-- The target an instruction with legal operands sets `pc` to, or none where it leaves `pc` to the uniform advance:
the explicit result `next_pc` of R72 and R73, from R95, R96 and R101 to R104. -/
def nextPc? (i : Instr) (s : State) : Option Int :=
  match i with
  | .call reg => (regIdx? reg).map fun r => ((if r = spReg then s.spForPush.sp else s.reg r).toNat : Int)
  | .ret => some (s.memRead s.sp).toNat
  | .jmp offset reg => (regIdx? reg).map fun r => jumpTarget (s.reg r) offset
  | .jeq offset reg =>
    if s.equalBit then (regIdx? reg).map fun r => jumpTarget (s.reg r) offset else none
  | .jne offset reg =>
    if s.equalBit then none else (regIdx? reg).map fun r => jumpTarget (s.reg r) offset
  | .ldi _ _ | .prn _ | .hlt | .mul _ _ | .add _ _ | .push _ | .pop _ | .cmp _ _ => none

/-- The registers an instruction may write: the last column of the table of R11. -/
def registersWritten : Instr → List RegIdx
  | .ldi reg _ | .mul reg _ | .add reg _ => (regIdx? reg).toList
  | .pop reg => spReg :: (regIdx? reg).toList
  | .push _ | .call _ | .ret => [spReg]
  | .prn _ | .hlt | .cmp _ _ | .jmp _ _ | .jeq _ _ | .jne _ _ => []

/-- The operand bytes of the instruction `m` at `pc` that name registers, in checking order (R70). -/
def registerBytesAtPc (m : Mnemonic) (s : State) : List Byte :=
  let op0 := s.mem.read (s.pc + 1).toNat
  let op1 := s.mem.read (s.pc + 2).toNat
  match m with
  | .ldi | .prn | .push | .pop | .call => [op0]
  | .mul | .add | .cmp => [op0, op1]
  | .jmp | .jeq | .jne => [op1]
  | .hlt | .ret => []

/-- The fatal error a step reports, by the priority list of R115 items 1 to 5: of the decoder it uses only the
recognition of the opcode byte, and it uses neither the fetch nor any meaning. -/
def firstFatal (opc : OpcodeMap) (s : State) : Option FatalError :=
  match addr? s.pc with
  | none => some (.outOfBoundsAddress .fetch s.pc)
  | some p =>
    match recognise opc (s.memRead p) with
    | none => some (.unknownInstruction (s.memRead p))
    | some m =>
      if 1 ≤ m.operandCount ∧ 255 < s.pc + 1 then some (.outOfBoundsAddress .operand (s.pc + 1))
      else if m.operandCount = 2 ∧ 255 < s.pc + 2 then some (.outOfBoundsAddress .operand (s.pc + 2))
      else
        match (registerBytesAtPc m s).find? fun b => decide (7 < b.toNat) with
        | some b => some (.outOfBoundsAddress .register b.toNat)
        | none =>
          if m = .call ∧ 255 < s.pc + 2 then some (.outOfBoundsAddress .returnAddress (s.pc + 2)) else none

/-! ## The invariant -/

/-- The information of a fatal error is what the table of R112 allows, and `pc` still is where the step began
(R76, R116). -/
def HaltReason.Sound (pc : Int) : HaltReason → Prop
  | .none | .hlt => True
  | .unknownInstruction p _ => p = pc ∧ 0 ≤ p ∧ p ≤ 255
  | .outOfBounds p .fetch v => p = pc ∧ v = p ∧ (v < 0 ∨ 255 < v)
  | .outOfBounds p .operand v => p = pc ∧ (p = 254 ∨ p = 255) ∧ v = 256
  | .outOfBounds p .register v => p = pc ∧ 0 ≤ p ∧ p ≤ 254 ∧ 8 ≤ v ∧ v ≤ 255
  | .outOfBounds p .returnAddress v => p = pc ∧ p = 254 ∧ v = 256

/-- What holds of every state a run reaches, and is kept by every step. -/
structure CoreInv (s : State) : Prop where
  /-- Memory is in canonical form: addresses rising, inside the 256 bytes, no cell that need not be listed. -/
  memCanonical : s.mem.wf = true
  /-- `FL` is 0x00 or one of the three one-bit values CMP writes (R19). -/
  flLegal : s.fl = 0x00 ∨ s.fl = flEqual ∨ s.fl = flGreater ∨ s.fl = flLess
  /-- `pc` is in the range R14 derives. -/
  pcRange : -253 ≤ s.pc ∧ s.pc ≤ 257
  /-- The halt reason's information is of the kind R112 lists. -/
  haltSound : s.hr.Sound s.pc
  /-- The fatal events on `diag` are exactly the one `hr` records, or none (R23, R25, R119). -/
  diagAgrees : s.diag.filter DiagEvent.isFatal = s.hr.fatalEvents

/-- What holds of a session in each phase. Before the first reset nothing does: no rule may depend on that state (R131,
U9). -/
def SessionInv (c : Session) : Prop :=
  match c.phase with
  | .neverReset => True
  | .ready => c.core = State.reset
  | .loaded => CoreInv c.core ∧ ∃ m, c.core = { State.reset with mem := m }
  | .running => CoreInv c.core ∧ c.core.hr = .none
  | .ended => CoreInv c.core ∧ Terminal c.core

end Sys2Proof.Machine
end

