-- ==== Sys2Proof/Certificates/Slice0/Obligations.lean ====
section
/-! DEFINITION. The statements about the machine, each from rules of spec/. Where a statement holds of the whole state
it is written through the views of the state (a register, a byte of memory, a status field), not as an equation of
record updates. "D<n>" is a decision of spec/92_eei_decisions.md: the spec's own choice where its source is silent. -/

open Sys2Proof Sys2Proof.Machine

/-! ## Reset, load, run -/

/-- Reset, from any state (R28, R130). `FL`, `hr` and the streams are D8, D13, D14, D15. -/
def Obligations.ResetLeavesEveryFieldAsStated : Prop :=
  ∀ s : State,
    resetTransaction s = State.reset ∧
    (∀ r, State.reset.reg r = 0x00) ∧ State.reset.pc = 0 ∧ State.reset.fl = 0x00 ∧
    (∀ a, State.reset.memRead a = 0x00) ∧
    State.reset.hr = .none ∧ State.reset.hr.hrPc = none ∧ State.reset.hr.hrOpcode = none ∧
    State.reset.hr.hrKind = none ∧ State.reset.hr.hrValue = none ∧
    State.reset.out = [] ∧ State.reset.diag = []

/-- After a reset an image of at most 256 bytes lands at address 0 on, the rest of memory and of the state as reset left
it, and the core is loaded; a longer one is a LoadError with no next state; and in every phase but the one reset leaves
load is refused (R47, R132, R133, R136; D16). -/
def Obligations.LoadPlacesTheImageFromAddressZero : Prop :=
  (∀ image : List Byte, image.length ≤ 256 →
    ∃ t, Session.load image ⟨State.reset, .ready⟩ = .next ⟨t, .loaded⟩ ∧
      (∀ k (h : k < image.length), t.memRead (BitVec.ofNat 8 k) = image[k]) ∧
      (∀ k, image.length ≤ k → k < 256 → t.memRead (BitVec.ofNat 8 k) = 0x00) ∧
      t.pc = 0 ∧ RegsKeptBut [] State.reset t ∧ StatusKept State.reset t) ∧
  (∀ image : List Byte, 256 < image.length → Session.load image ⟨State.reset, .ready⟩ = .fault .loadError) ∧
  (∀ (image : List Byte) (c : Session), c.phase ≠ .ready → c.load image = .refused .loadNotAfterReset)

/-- What the host may do in each phase (R47, R130, R131, R134, R136): reset at any time but during a run; run after a
reset, loaded or not, and after its end without effect; and read the state at any time but during a run and before the
first reset. -/
def Obligations.HostTransactionsAreAcceptedOnlyInTheirPhases : Prop :=
  (∀ c : Session, (c.phase ≠ .running → c.reset = .next ⟨State.reset, .ready⟩) ∧
    (c.phase = .running → c.reset = .refused .resetDuringRun)) ∧
  (∀ c : Session, (c.phase = .ready ∨ c.phase = .loaded → c.run = .next ⟨c.core, .running⟩) ∧
    (c.phase = .ended → c.run = .next c ∧ c.haltReason = some c.core.hr) ∧
    (c.phase = .neverReset ∨ c.phase = .running → c.run = .refused .runNotAccepted)) ∧
  (∀ c : Session, (c.phase = .neverReset ∨ c.phase = .running → c.hostRead = none) ∧
    (c.phase = .ready ∨ c.phase = .loaded ∨ c.phase = .ended → c.hostRead = some c.core))

/-- Once a load was accepted, or a run was started, no load is accepted before the next reset, whatever runs and steps
come between: not a second time, not during the run, not after it (R47, R132, R136; D16). -/
def Obligations.NoSecondLoadAndNoneAfterTheRunStarts : Prop :=
  ∀ (opc : OpcodeMap) (c d f : Session) (e : SessionEvent) (es : List SessionEvent),
    (e = .run ∨ ∃ image, e = .load image) → c.apply opc e = .next d →
    SessionTrace opc es d f → SessionEvent.reset ∉ es →
    ∀ image', f.load image' = .refused .loadNotAfterReset

/-- In a run the core takes its own steps and the run ends in the first state with `hr` not `NONE`; outside a run no
step exists; and a run in progress leaves the core where the same number of steps of the cycle leaves it (R74 to
R76, R134). -/
def Obligations.TheRunOfASessionIsTheRunOfItsCore : Prop :=
  (∀ (opc : OpcodeMap) (s t : State), cycle opc s = .next t →
    Session.step opc ⟨s, .running⟩ = .next ⟨t, if t.hr = .none then .running else .ended⟩) ∧
  (∀ (opc : OpcodeMap) (c : Session), c.phase ≠ .running → c.step opc = .refused .notRunning) ∧
  (∀ (opc : OpcodeMap) (s : State) (k : Nat), s.hr = .none →
    Session.runFor opc k ⟨s, .running⟩ =
      ⟨runFor opc k s, if (runFor opc k s).hr = .none then .running else .ended⟩)

/-- A halted core has no step, and a run of it returns at once with the same state (R75, R134; D17). -/
def Obligations.HaltedCoreHasNoStep : Prop :=
  ∀ (opc : OpcodeMap) (s : State), Terminal s →
    (∀ t, cycle opc s ≠ .next t) ∧ cycle opc s = .fault (.halted s.hr) ∧ ∀ k, runFor opc k s = s

/-- Every instruction, with any operand bytes, in any state, has a next state, and so has every step of a core that
is not halted: no fault and no refusal (R65, R124). -/
def Obligations.EveryInstructionAndEveryRunningStepAnswers : Prop :=
  (∀ (i : Instr) (s : State), ∃ t, exec i s = .next t) ∧
  (∀ (opc : OpcodeMap) (s : State), s.hr = .none → ∃ t, cycle opc s = .next t)

/-- A run cut at `k` steps is a sequence of steps, and a run that can reach a terminal state ends in exactly that
state, however long it is let run (R74, R76, R134). -/
def Obligations.RunsEndInOneTerminalState : Prop :=
  ∀ (opc : OpcodeMap) (s : State),
    (∀ k, Steps opc s (runFor opc k s)) ∧
    (∀ t, Steps opc s t → Terminal t → ∃ n, ∀ k, n ≤ k → runFor opc k s = t)

/-! ## Decoding and encoding -/

/-- Under every opcode map that meets R54, decoding an encoded instruction gives it back, every operand byte at every
value, whatever follows it in memory. -/
def Obligations.DecodingAnEncodedInstructionGivesItBack : Prop :=
  ∀ opc : OpcodeMap, opc.Valid → ∀ (i : Instr) (rest : List Byte),
    decodeWith opc (encodeWith opc i ++ rest) = .ok (i, rest)

/-- What the decoder reads is the encoding of what it answers, byte for byte: each byte sequence has one meaning. -/
def Obligations.DecodedBytesAreTheEncoding : Prop :=
  ∀ (opc : OpcodeMap) (bytes rest : List Byte) (i : Instr),
    decodeWith opc bytes = .ok (i, rest) → bytes = encodeWith opc i ++ rest

/-- The default opcode map meets R54, and words written out from its table (R55, D1) decode to their instructions. -/
def Obligations.ListedWordsDecodeToTheirInstructions : Prop :=
  opcDefault.Valid ∧
  decode [0b10000010#8, 0x00, 0x08] = .ok (.ldi 0x00 0x08, []) ∧
  decode [0b01000111#8, 0x03] = .ok (.prn 0x03, []) ∧
  decode [0b00000001#8] = .ok (.hlt, []) ∧
  decode [0b10100010#8, 0x00, 0x01] = .ok (.mul 0x00 0x01, []) ∧
  decode [0b10100000#8, 0x07, 0x00] = .ok (.add 0x07 0x00, []) ∧
  decode [0b01000101#8, 0x07] = .ok (.push 0x07, []) ∧
  decode [0b01000110#8, 0x00] = .ok (.pop 0x00, []) ∧
  decode [0b01010000#8, 0x01] = .ok (.call 0x01, []) ∧
  decode [0b00010001#8] = .ok (.ret, []) ∧
  decode [0b10100111#8, 0x00, 0x01] = .ok (.cmp 0x00 0x01, []) ∧
  decode [0b10010100#8, 0x02, 0x00] = .ok (.jmp 0x02 0x00, []) ∧
  decode [0b10010101#8, 0x02, 0x03] = .ok (.jeq 0x02 0x03, []) ∧
  decode [0b10010110#8, 0x02, 0x03] = .ok (.jne 0x02 0x03, [])

/-- The top two bits of a recognised opcode byte are the instruction's operand count, 0, 1 or 2 (R67). -/
def Obligations.TopBitsOfARecognisedOpcodeAreItsOperandCount : Prop :=
  ∀ opc : OpcodeMap, opc.Valid → ∀ (ir : Byte) (m : Mnemonic), recognise opc ir = some m →
    operandCountOf ir = m.operandCount ∧ (operandCountOf ir = 0 ∨ operandCountOf ir = 1 ∨ operandCountOf ir = 2)

/-- Under every map that meets R54 exactly 243 of the 256 byte values are unrecognised (R57, D1). -/
def Obligations.TwoHundredFortyThreeBytesAreUnrecognised : Prop :=
  ∀ opc : OpcodeMap, opc.Valid →
    ((List.range 256).countP fun k => recognise opc (BitVec.ofNat 8 k) == none) = 243

/-! ## The instruction cycle -/

/-- When the bytes at `pc` decode to an instruction, the step is that instruction's `exec` and nothing around it: the
advance of `pc` is inside `exec` (R71, R72). -/
def Obligations.StepRunsTheDecodedInstruction : Prop :=
  ∀ (s : State) (i : Instr) (rest : List Byte), s.hr = .none →
    (∀ opc, decodeWith opc (window s) = .ok (i, rest) → cycle opc s = exec i s) ∧
    (decode (window s) = .ok (i, rest) → step s = exec i s)

/-- When an instruction's encoding stands in memory from `pc` on, the step is that instruction's `exec`. -/
def Obligations.InstructionStoredAtPcIsTheOneThatRuns : Prop :=
  ∀ opc : OpcodeMap, opc.Valid → ∀ (s : State) (i : Instr), s.hr = .none →
    BytesAt (encodeWith opc i) s.pc s → cycle opc s = exec i s

/-- A step that begins with `pc` outside 0 to 255 is the fatal error of kind FETCH with that `pc` (D2, D13). -/
def Obligations.PcOutsideMemoryFaultsAtTheFetch : Prop :=
  ∀ (opc : OpcodeMap) (s : State), s.hr = .none → (s.pc < 0 ∨ 255 < s.pc) →
    ∃ t, cycle opc s = .next t ∧ TookFatal (.outOfBoundsAddress .fetch s.pc) s t

/-- An unknown opcode byte at `pc`, at any address of memory, halts the run and reports `pc` and the byte (R111). -/
def Obligations.UnknownOpcodeHaltsAndReportsPcAndOpcode : Prop :=
  ∀ (opc : OpcodeMap) (s : State) (p : Addr), s.hr = .none → s.pc = p.toNat →
    (∀ m, opc.byte m ≠ s.memRead p) →
    ∃ t, cycle opc s = .next t ∧
      t.hr = .unknownInstruction s.pc (s.memRead p) ∧
      t.hr.hrPc = some s.pc ∧ t.hr.hrOpcode = some (s.memRead p) ∧
      t.diag = s.diag ++ [.unknownInstruction s.pc (s.memRead p)] ∧
      TookFatal (.unknownInstruction (s.memRead p)) s t

/-- A byte that would announce three operands is an unknown opcode, also where no operand byte would fit (R58; D6). -/
def Obligations.OpcodeWithTopBitsElevenIsUnknown : Prop :=
  ∀ opc : OpcodeMap, opc.Valid → ∀ (s : State) (p : Addr), s.hr = .none → s.pc = p.toNat →
    operandCountOf (s.memRead p) = 3 →
    ∃ t, cycle opc s = .next t ∧ TookFatal (.unknownInstruction (s.memRead p)) s t

/-- A recognised instruction whose operand bytes do not fit below address 256 is the fatal error of kind OPERAND with
the first missing address, and nothing wraps (R69; D3, D6). -/
def Obligations.OperandBeyondMemoryFaults : Prop :=
  ∀ (opc : OpcodeMap) (s : State) (p : Addr) (m : Mnemonic), s.hr = .none → s.pc = p.toNat →
    recognise opc (s.memRead p) = some m → 255 < s.pc + m.operandCount →
    ∃ t, cycle opc s = .next t ∧ TookFatal (.outOfBoundsAddress .operand 256) s t

/-- The first register operand byte above 7, `op0` before `op1`, is the fatal error of kind REGISTER with that byte,
for every instruction, whether or not it would use the register (R70; D7). -/
def Obligations.RegisterOperandAboveSevenFaults : Prop :=
  ∀ (i : Instr) (s : State) (b : Byte), (i.registerOperands.find? fun b => decide (7 < b.toNat)) = some b →
    ∃ t, exec i s = .next t ∧ TookFatal (.outOfBoundsAddress .register b.toNat) s t

/-- A step that ends with a fatal error changed `hr`, its fields and `diag` and nothing else, and no step follows it
(R116). -/
def Obligations.FatalErrorsChangeOnlyTheHaltReasonAndDiag : Prop :=
  ∀ (opc : OpcodeMap) (s t : State), cycle opc s = .next t → t.hr.isFatal = true →
    (∃ e, TookFatal e s t) ∧ ∀ opc' u, cycle opc' t ≠ .next u

/-- The step reports exactly the error the priority list of R115 finds first, and where the list finds none it
reports no fatal error (D5). Of the decoder the list uses only the recognition of the opcode byte. -/
def Obligations.StepFaultsExactlyAsThePriorityListSays : Prop :=
  ∀ opc : OpcodeMap, opc.Valid → ∀ s : State, s.hr = .none →
    (∀ e, firstFatal opc s = some e → ∃ t, cycle opc s = .next t ∧ TookFatal e s t) ∧
    (firstFatal opc s = none →
      ∃ t, cycle opc s = .next t ∧ (t.hr = .none ∨ t.hr = .hlt) ∧
        t.diag.filter DiagEvent.isFatal = s.diag.filter DiagEvent.isFatal)

/-- Unless the instruction set `pc` itself (CALL, RET, JMP, JEQ and JNE when taken), `pc` advances by 1 plus the
operand count, HLT and a POP that underflows included; after a fatal error `pc` is unchanged (R72). -/
def Obligations.PcAdvancesUnlessTheInstructionSetsIt : Prop :=
  (∀ (i : Instr) (s : State), i.wellFormed = true → (i.mnemonic = .call → s.pc ≤ 253) →
    ∃ t, exec i s = .next t ∧ t.pc = (nextPc? i s).getD (s.pc + 1 + i.mnemonic.operandCount)) ∧
  (∀ (opc : OpcodeMap) (s t : State), cycle opc s = .next t → t.hr.isFatal = true → t.pc = s.pc)

/-! ## The instructions -/

/-- LDI (R80), with the errors "from the step" its rule names. -/
def Obligations.LdiLoadsTheValue : Prop :=
  (∀ (r : RegIdx) (value : Byte) (s : State),
    ∃ t, exec (.ldi r.toByte value) s = .next t ∧ StepAnswers (.ldi r.toByte value) s t ∧
      t.reg r = value ∧ t.pc = s.pc + 3 ∧
      RegsKeptBut [r] s t ∧ MemKept s t ∧ StatusKept s t) ∧
  (∀ (op0 value : Byte) (s : State), 7 < op0.toNat →
    ∃ t, exec (.ldi op0 value) s = .next t ∧ TookFatal (.outOfBoundsAddress .register op0.toNat) s t) ∧
  FaultsFromOn 254 .ldi

/-- PRN (R81): the byte goes to the output stream, unsigned as it stands (D9, D14). -/
def Obligations.PrnEmitsTheRegister : Prop :=
  ∀ (r : RegIdx) (s : State),
    ∃ t, exec (.prn r.toByte) s = .next t ∧
      t.out = s.out ++ [s.reg r] ∧ t.pc = s.pc + 2 ∧
      RegsKeptBut [] s t ∧ MemKept s t ∧ t.fl = s.fl ∧ t.hr = s.hr ∧ t.diag = s.diag

/-- HLT (R82): a terminal state with `pc` one past the instruction (D12). -/
def Obligations.HltEndsTheRun : Prop :=
  ∀ s : State,
    ∃ t, exec .hlt s = .next t ∧
      t.hr = .hlt ∧ t.pc = s.pc + 1 ∧
      RegsKeptBut [] s t ∧ MemKept s t ∧ t.fl = s.fl ∧ t.out = s.out ∧ t.diag = s.diag ∧
      ∀ opc u, cycle opc t ≠ .next u

/-- MUL (R86): the low byte of the unsigned product, register b unchanged unless it is register a, with the errors
"from the step" its rule names. -/
def Obligations.MulKeepsTheLowByteOfTheProduct : Prop :=
  (∀ (ra rb : RegIdx) (s : State),
    ∃ t, exec (.mul ra.toByte rb.toByte) s = .next t ∧ StepAnswers (.mul ra.toByte rb.toByte) s t ∧
      (t.reg ra).toNat = (s.reg ra).toNat * (s.reg rb).toNat % 256 ∧ t.pc = s.pc + 3 ∧
      RegsKeptBut [ra] s t ∧ MemKept s t ∧ StatusKept s t) ∧
  (∀ (op0 op1 : Byte) (s : State), 7 < op0.toNat →
    ∃ t, exec (.mul op0 op1) s = .next t ∧ TookFatal (.outOfBoundsAddress .register op0.toNat) s t) ∧
  (∀ (ra : RegIdx) (op1 : Byte) (s : State), 7 < op1.toNat →
    ∃ t, exec (.mul ra.toByte op1) s = .next t ∧ TookFatal (.outOfBoundsAddress .register op1.toNat) s t) ∧
  FaultsFromOn 254 .mul

/-- ADD (R87): the sum modulo 256, with the errors "from the step" its rule names. -/
def Obligations.AddWrapsModulo256 : Prop :=
  (∀ (ra rb : RegIdx) (s : State),
    ∃ t, exec (.add ra.toByte rb.toByte) s = .next t ∧ StepAnswers (.add ra.toByte rb.toByte) s t ∧
      (t.reg ra).toNat = ((s.reg ra).toNat + (s.reg rb).toNat) % 256 ∧ t.pc = s.pc + 3 ∧
      RegsKeptBut [ra] s t ∧ MemKept s t ∧ StatusKept s t) ∧
  (∀ (op0 op1 : Byte) (s : State), 7 < op0.toNat →
    ∃ t, exec (.add op0 op1) s = .next t ∧ TookFatal (.outOfBoundsAddress .register op0.toNat) s t) ∧
  (∀ (ra : RegIdx) (op1 : Byte) (s : State), 7 < op1.toNat →
    ∃ t, exec (.add ra.toByte op1) s = .next t ∧ TookFatal (.outOfBoundsAddress .register op1.toNat) s t) ∧
  FaultsFromOn 254 .add

/-- ADD and MUL are commutative: with the inputs swapped between the two registers the target ends the same (R88). -/
def Obligations.AddAndMulAreCommutative : Prop :=
  ∀ (ra rb : RegIdx) (s s' : State), s'.reg ra = s.reg rb → s'.reg rb = s.reg ra →
    (∃ t t', exec (.add ra.toByte rb.toByte) s = .next t ∧ exec (.add ra.toByte rb.toByte) s' = .next t' ∧
      t'.reg ra = t.reg ra) ∧
    (∃ t t', exec (.mul ra.toByte rb.toByte) s = .next t ∧ exec (.mul ra.toByte rb.toByte) s' = .next t' ∧
      t'.reg ra = t.reg ra)

/-- PUSH (R92): SP is initialised from 0, decremented, and the register as it then is stored at the new SP, register
7 included (its case is the spec's own inference, R92 b). -/
def Obligations.PushStoresBelowTheStackPointer : Prop :=
  ∀ (r : RegIdx) (s : State),
    s.spForPush.sp = (if s.sp = 0x00 then 0xF3 else s.sp - 1) ∧
    ∃ t, exec (.push r.toByte) s = .next t ∧
      t.sp = s.spForPush.sp ∧
      t.memRead s.spForPush.sp = (if r = spReg then s.spForPush.sp else s.reg r) ∧
      t.pc = s.pc + 2 ∧
      RegsKeptBut [spReg] s t ∧ MemKeptBut s.spForPush.sp s t ∧ StatusKept s t

/-- POP with SP neither 0 nor 0xF4 (R93): the byte at SP goes to the register, then SP as it is then is incremented
modulo 256, register 7 included (R93 b; D10). -/
def Obligations.PopLoadsThenIncrementsTheStackPointer : Prop :=
  ∀ (r : RegIdx) (s : State), s.sp ≠ 0x00 → s.sp ≠ 0xF4 →
    ∃ t, exec (.pop r.toByte) s = .next t ∧
      (r ≠ spReg → t.reg r = s.memRead s.sp) ∧
      t.sp = (if r = spReg then s.memRead s.sp + 1 else s.sp + 1) ∧
      t.pc = s.pc + 2 ∧
      RegsKeptBut [r, spReg] s t ∧ MemKept s t ∧ StatusKept s t

/-- POP with SP 0 or 0xF4 reports StackUnderflow and is skipped: the event is appended, `hr` stays, registers, `FL`
and memory are unchanged, `pc` advances by 2; no other instruction raises it (R113). -/
def Obligations.PopOnAnEmptyStackReportsAndIsSkipped : Prop :=
  (∀ (r : RegIdx) (s : State), (s.sp = 0x00 ∨ s.sp = 0xF4) →
    ∃ t, exec (.pop r.toByte) s = .next t ∧
      t.diag = s.diag ++ [.stackUnderflow s.pc] ∧ t.pc = s.pc + 2 ∧
      RegsKeptBut [] s t ∧ MemKept s t ∧ t.fl = s.fl ∧ t.hr = s.hr ∧ t.out = s.out) ∧
  (∀ (i : Instr) (s t : State), exec i s = .next t →
    (i.mnemonic ≠ .pop ∨ (s.sp ≠ 0x00 ∧ s.sp ≠ 0xF4)) → t.underflowCount = s.underflowCount)

/-- CALL (R95): the return address `pc + 2` is stored as PUSH would store it, and `pc` becomes the register as it
is after SP moved, register 7 included (its case is the spec's own inference, R95 b). -/
def Obligations.CallPushesTheReturnAddressAndJumps : Prop :=
  ∀ (r : RegIdx) (s : State), 0 ≤ s.pc → s.pc ≤ 253 →
    s.spForPush.sp = (if s.sp = 0x00 then 0xF3 else s.sp - 1) ∧
    ∃ t, exec (.call r.toByte) s = .next t ∧
      t.sp = s.spForPush.sp ∧
      ((t.memRead s.spForPush.sp).toNat : Int) = s.pc + 2 ∧
      t.pc = (if r = spReg then s.spForPush.sp else s.reg r).toNat ∧
      RegsKeptBut [spReg] s t ∧ MemKeptBut s.spForPush.sp s t ∧ StatusKept s t

/-- A CALL at address 254 has return address 256 and faults before any write (D11). -/
def Obligations.CallAtAddress254Faults : Prop :=
  ∀ (r : RegIdx) (s : State), s.pc = 254 →
    ∃ t, exec (.call r.toByte) s = .next t ∧ TookFatal (.outOfBoundsAddress .returnAddress 256) s t

/-- RET (R96): `pc` becomes the byte at SP and SP is incremented modulo 256, with no emptiness test (D10). -/
def Obligations.RetPopsTheProgramCounter : Prop :=
  ∀ s : State,
    ∃ t, exec .ret s = .next t ∧
      t.pc = (s.memRead s.sp).toNat ∧ t.sp = s.sp + 1 ∧
      RegsKeptBut [spReg] s t ∧ MemKept s t ∧ StatusKept s t

/-- CMP (R100): all eight bits of `FL` are written, one of the three flags set by the unsigned order (D8, D9). -/
def Obligations.CmpSetsExactlyTheFlagOfTheUnsignedOrder : Prop :=
  ∀ (ra rb : RegIdx) (s : State),
    ∃ t, exec (.cmp ra.toByte rb.toByte) s = .next t ∧
      ((s.reg ra).toNat = (s.reg rb).toNat → t.fl = 0x01) ∧
      ((s.reg ra).toNat < (s.reg rb).toNat → t.fl = 0x04) ∧
      ((s.reg rb).toNat < (s.reg ra).toNat → t.fl = 0x02) ∧
      t.pc = s.pc + 3 ∧
      RegsKeptBut [] s t ∧ MemKept s t ∧ t.hr = s.hr ∧ t.out = s.out ∧ t.diag = s.diag

/-- JMP (R101, R102): the base register less the offset plus 2, exact over the integers (D2). -/
def Obligations.JmpGoesToTheBaseLessTheOffsetPlusTwo : Prop :=
  ∀ (offset : Byte) (r : RegIdx) (s : State),
    ∃ t, exec (.jmp offset r.toByte) s = .next t ∧
      t.pc = ((s.reg r).toNat : Int) - (offset.toNat : Int) + 2 ∧
      RegsKeptBut [] s t ∧ MemKept s t ∧ StatusKept s t

/-- JEQ (R103): JMP's target when bit 0 of `FL` is set, else the uniform advance (D2 for a target outside memory). -/
def Obligations.JeqJumpsOnlyWhenTheEqualBitIsSet : Prop :=
  ∀ (offset : Byte) (r : RegIdx) (s : State),
    ∃ t, exec (.jeq offset r.toByte) s = .next t ∧
      (s.fl.getLsbD 0 = true → t.pc = ((s.reg r).toNat : Int) - (offset.toNat : Int) + 2) ∧
      (s.fl.getLsbD 0 = false → t.pc = s.pc + 3) ∧
      RegsKeptBut [] s t ∧ MemKept s t ∧ StatusKept s t

/-- JNE (R104): JMP's target when bit 0 of `FL` is clear, else the uniform advance (D2 for a target outside
memory). -/
def Obligations.JneJumpsOnlyWhenTheEqualBitIsClear : Prop :=
  ∀ (offset : Byte) (r : RegIdx) (s : State),
    ∃ t, exec (.jne offset r.toByte) s = .next t ∧
      (s.fl.getLsbD 0 = false → t.pc = ((s.reg r).toNat : Int) - (offset.toNat : Int) + 2) ∧
      (s.fl.getLsbD 0 = true → t.pc = s.pc + 3) ∧
      RegsKeptBut [] s t ∧ MemKept s t ∧ StatusKept s t

/-! ## Sequences -/

/-- PUSH then POP of one register restores it and leaves SP where it was, from every SP but three: 0 leaves SP at
0xF4, and 1 and 0xF5 make the POP report an empty stack (R94 a, the spec's own inference). -/
def Obligations.PushThenPopRestoresTheRegister : Prop :=
  ∀ (r : RegIdx) (s : State),
    ∃ t, execAll [.push r.toByte, .pop r.toByte] s = .next t ∧
      ((s.sp ≠ 0x00 ∧ s.sp ≠ 0x01 ∧ s.sp ≠ 0xF5) →
        t.reg r = s.reg r ∧ t.sp = s.sp ∧ t.diag = s.diag) ∧
      (s.sp = 0x00 → r ≠ spReg → t.reg r = s.reg r ∧ t.sp = 0xF4 ∧ t.diag = s.diag) ∧
      ((s.sp = 0x01 ∨ s.sp = 0xF5) →
        t.sp = s.sp - 1 ∧ t.diag = s.diag ++ [.stackUnderflow (s.pc + 2)])

/-- A RET with SP where a CALL left it and the byte there unmodified returns to the instruction after the CALL and
restores SP, except that a CALL that initialised SP from 0 leaves 0xF4 (R97). -/
def Obligations.RetReturnsPastTheMatchingCall : Prop :=
  ∀ (r : RegIdx) (s : State), 0 ≤ s.pc → s.pc ≤ 253 →
    ∃ t, exec (.call r.toByte) s = .next t ∧
      ((t.memRead t.sp).toNat : Int) = s.pc + 2 ∧
      (s.sp = 0x01 → t.sp = 0x00) ∧
      ∀ u : State, u.sp = t.sp → u.memRead t.sp = t.memRead t.sp →
        ∃ v, exec .ret u = .next v ∧ v.pc = s.pc + 2 ∧ v.sp = (if s.sp = 0x00 then 0xF4 else s.sp)

/-- The stack of R91: from SP at the sentinel, `k` pushes leave SP at `0xF4 - k` and the pushed bytes from 0xF3 down,
the newest lowest; no byte outside them is written; there is no limit until, after 244, SP is 0 and the next push
starts again at 0xF3; a pop loads the newest and moves SP up by one. -/
def Obligations.PushesFillTheStackDownwardFromTheSentinel : Prop :=
  ∀ (rs : List RegIdx) (s : State), (∀ r ∈ rs, r ≠ spReg) → rs.length ≤ 244 → s.sp = 0xF4 →
    ∃ t, execAll (rs.map fun r => .push r.toByte) s = .next t ∧
      t.sp.toNat = 0xF4 - rs.length ∧
      (∀ k (h : k < rs.length), t.memRead (BitVec.ofNat 8 (0xF3 - k)) = s.reg rs[k]) ∧
      (∀ a : Addr, (a.toNat < 0xF4 - rs.length ∨ 0xF4 ≤ a.toNat) → t.memRead a = s.memRead a) ∧
      (rs.length = 244 → ∀ r : RegIdx, r ≠ spReg →
        ∃ u, exec (.push r.toByte) t = .next u ∧ u.sp = 0xF3 ∧ u.memRead 0xF3 = s.reg r) ∧
      (∀ h : rs ≠ [], rs.length ≤ 243 → ∀ q : RegIdx, q ≠ spReg →
        ∃ u, exec (.pop q.toByte) t = .next u ∧ u.reg q = s.reg (rs.getLast h) ∧ u.sp = t.sp + 1)

/-! ## Rules of the whole machine -/

/-- `FL` is set only by CMP and read only by JEQ and JNE, and of it only bit 0 (R18): another instruction leaves it
alone, and what an instruction does to everything else is the same whatever `FL` holds, for JEQ and JNE whatever
its bits 7:1 hold. JEQ jumps with bit 0 set, JNE with bit 0 clear. -/
def Obligations.FlIsSetOnlyByCmpAndReadOnlyByJeqAndJne : Prop :=
  (∀ (i : Instr) (s t : State), exec i s = .next t → i.mnemonic ≠ .cmp → t.fl = s.fl) ∧
  (∀ (i : Instr) (s : State) (f : Byte),
    ((i.mnemonic ≠ .jeq ∧ i.mnemonic ≠ .jne) ∨ f.getLsbD 0 = s.fl.getLsbD 0) →
    ∃ t t', exec i s = .next t ∧ exec i { s with fl := f } = .next t' ∧
      t'.x = t.x ∧ t'.pc = t.pc ∧ t'.mem = t.mem ∧ t'.hr = t.hr ∧ t'.out = t.out ∧ t'.diag = t.diag ∧
      (i.mnemonic = .cmp → i.wellFormed = true → t'.fl = t.fl)) ∧
  (∀ (offset : Byte) (r : RegIdx) (s : State),
    ∃ t, exec (.jeq offset r.toByte) s = .next t ∧
      t.pc = if s.fl.getLsbD 0 = true then ((s.reg r).toNat : Int) - (offset.toNat : Int) + 2 else s.pc + 3) ∧
  (∀ (offset : Byte) (r : RegIdx) (s : State),
    ∃ t, exec (.jne offset r.toByte) s = .next t ∧
      t.pc = if s.fl.getLsbD 0 = false then ((s.reg r).toNat : Int) - (offset.toNat : Int) + 2 else s.pc + 3)

/-- What an instruction may change, for all thirteen at once: the registers of R11's table, memory only by PUSH and
CALL, `out` only by PRN, `hr` only by HLT or with a fatal error, `diag` only by POP or with a fatal error (R11, R21,
R35; D13 to D15, D20). -/
def Obligations.InstructionsChangeOnlyWhatTheirRulesName : Prop :=
  ∀ (i : Instr) (s t : State), exec i s = .next t →
    RegsKeptBut (registersWritten i) s t ∧
    (i.mnemonic ≠ .push → i.mnemonic ≠ .call → MemKept s t) ∧
    (i.mnemonic = .push ∨ i.mnemonic = .call → MemKeptBut s.spForPush.sp s t) ∧
    (i.mnemonic ≠ .prn → t.out = s.out) ∧
    (t.hr = s.hr ∨ (i.mnemonic = .hlt ∧ t.hr = .hlt) ∨ ∃ e, TookFatal e s t) ∧
    (t.diag = s.diag ∨ (i.mnemonic = .pop ∧ t.diag = s.diag ++ [.stackUnderflow s.pc]) ∨ ∃ e, TookFatal e s t)

/-- The streams only grow, and no step reads them: with other contents on them the same step adds the same bytes and
events and does everything else alike (R24, R25, R120; D14, D15). -/
def Obligations.StreamsOnlyGrowAndAreNeverRead : Prop :=
  ∀ (opc : OpcodeMap) (s t : State), cycle opc s = .next t →
    ∃ newOut newDiag, t.out = s.out ++ newOut ∧ t.diag = s.diag ++ newDiag ∧
      ∀ o d, cycle opc { s with out := o, diag := d } =
        .next { t with out := o ++ newOut, diag := d ++ newDiag }

/-- Along any run from `s` both streams keep what they held, and a terminal state is never left (R120, D17). -/
def Obligations.ReportedErrorsAndHaltsAreSticky : Prop :=
  ∀ (opc : OpcodeMap) (s t : State), Steps opc s t →
    s.out <+: t.out ∧ s.diag <+: t.diag ∧ (Terminal s → t = s)

/-- Two memories in canonical form that read alike at all 256 addresses are the same data. -/
def Obligations.MemoriesThatReadAlikeAreEqual : Prop :=
  ∀ m n : Memory, m.wf = true → n.wf = true → (∀ a : Addr, m.read a.toNat = n.read a.toNat) → m = n

/-! ## The arbiter -/

/-- The accesses of a step, in order: the opcode at `pc`, the operands at `pc + 1` and `pc + 2`, then at most one data
access (R41; D19). Under every map: that order and those addresses. Under every map that meets R54 and for every
running core with `pc` in memory: exactly the accesses, for an unrecognised opcode the IFETCH alone, for operands that
pass address 255 the IFETCH and the OFETCHes inside memory, and for an instruction that stands at `pc` the IFETCH, its
OFETCHes and the data access R40 gives it: DWRITE below SP for PUSH and CALL, DREAD at SP for POP unless it
underflows and for RET, none after a failed check and none for any other instruction. A halted core, and one with `pc`
outside memory, makes no access. -/
def Obligations.AccessesOfAStepComeInOrder : Prop :=
  (∀ (opc : OpcodeMap) (s : State),
    ∃ fetches data, stepAccesses opc s = fetches ++ data ∧
      data.length ≤ 1 ∧ (∀ ac ∈ data, ac.cls = .dread ∨ ac.cls = .dwrite) ∧
      fetches.length ≤ 3 ∧
      ∀ k (h : k < fetches.length),
        fetches[k].cls = (if k = 0 then .ifetch else .ofetch) ∧ (fetches[k].addr.toNat : Int) = s.pc + k) ∧
  (∀ (opc : OpcodeMap) (s : State), (s.hr ≠ .none ∨ s.pc < 0 ∨ 255 < s.pc) → stepAccesses opc s = []) ∧
  (∀ opc : OpcodeMap, opc.Valid → ∀ (s : State) (p : Addr), s.hr = .none → s.pc = p.toNat →
    ((∀ m, opc.byte m ≠ s.memRead p) → stepAccesses opc s = [⟨.ifetch, p⟩]) ∧
    (∀ m : Mnemonic, s.memRead p = opc.byte m → 255 < s.pc + m.operandCount →
      stepAccesses opc s =
        ⟨.ifetch, p⟩ :: (List.range (255 - p.toNat)).map fun k => ⟨.ofetch, p + BitVec.ofNat 8 (k + 1)⟩) ∧
    (∀ i : Instr, BytesAt (encodeWith opc i) s.pc s →
      ∃ data, stepAccesses opc s =
          ⟨.ifetch, p⟩ :: ((List.range i.mnemonic.operandCount).map fun k => ⟨.ofetch, p + BitVec.ofNat 8 (k + 1)⟩) ++
            data ∧
        (i.wellFormed = false → data = []) ∧
        (∀ r : RegIdx, i = .push r.toByte → data = [⟨.dwrite, if s.sp = 0x00 then 0xF3 else s.sp - 1⟩]) ∧
        (∀ r : RegIdx, i = .call r.toByte →
          data = if s.pc = 254 then [] else [⟨.dwrite, if s.sp = 0x00 then 0xF3 else s.sp - 1⟩]) ∧
        (∀ r : RegIdx, i = .pop r.toByte →
          data = if s.sp = 0x00 ∨ s.sp = 0xF4 then [] else [⟨.dread, s.sp⟩]) ∧
        (i = .ret → data = [⟨.dread, s.sp⟩]) ∧
        (i.mnemonic ∉ [.push, .call, .pop, .ret] → data = [])))

/-- The LOAD accesses of a load (R40, R133): an accepted one makes one for each byte of the image, ascending from
address 0, and changes no byte of memory but those; a load that is refused, or is a LoadError, makes none. -/
def Obligations.LoadAccessesAreThoseOfAnAcceptedLoad : Prop :=
  (∀ (image : List Byte) (c d : Session), c.load image = .next d →
    (loadAccesses image c).length = image.length ∧
    (∀ k (h : k < (loadAccesses image c).length),
      (loadAccesses image c)[k].cls = .load ∧ (loadAccesses image c)[k].addr.toNat = k) ∧
    ∀ a : Addr, (∀ ac ∈ loadAccesses image c, ac.addr ≠ a) → d.core.memRead a = c.core.memRead a) ∧
  (∀ (image : List Byte) (c : Session), (c.phase ≠ .ready ∨ 256 < image.length) → loadAccesses image c = [])

/-- A step changes no byte of memory but the one its write access names (R31, R41; D19). -/
def Obligations.StepStoresOnlyAtItsWriteAccess : Prop :=
  ∀ (opc : OpcodeMap) (s t : State), cycle opc s = .next t →
    ∀ a : Addr, (∀ ac ∈ stepAccesses opc s, ac.cls = .dwrite → ac.addr ≠ a) → t.memRead a = s.memRead a

/-- A step depends on memory only through the bytes its read accesses name: with any memory that agrees on those it
makes the same accesses and does the same, and each byte it does not write is left as it was there (R41, R42;
D19). -/
def Obligations.StepReadsOnlyWhatItsAccessesName : Prop :=
  ∀ (opc : OpcodeMap) (s : State) (m : Memory), s.hr = .none →
    (∀ ac ∈ stepAccesses opc s, ac.cls.isWrite = false → m.read ac.addr.toNat = s.memRead ac.addr) →
    ∃ t t', cycle opc s = .next t ∧ cycle opc { s with mem := m } = .next t' ∧
      stepAccesses opc { s with mem := m } = stepAccesses opc s ∧
      t'.x = t.x ∧ t'.pc = t.pc ∧ t'.fl = t.fl ∧ t'.hr = t.hr ∧ t'.out = t.out ∧ t'.diag = t.diag ∧
      (∀ ac ∈ stepAccesses opc s, ac.cls = .dwrite → t'.memRead ac.addr = t.memRead ac.addr) ∧
      (∀ a : Addr, (∀ ac ∈ stepAccesses opc s, ac.cls = .dwrite → ac.addr ≠ a) → t'.memRead a = m.read a.toNat)

/-! ## The invariant -/

/-- The state reset leaves meets the invariant. -/
def Obligations.InvariantHoldsAtReset : Prop := CoreInv State.reset

/-- Every step, under every opcode map, from every state that meets the invariant, gives a state that meets it:
memory canonical, `FL` one of four values, `pc` within -253 to 257, the halt reason's information of the kind R112
lists, `diag` holding exactly the fatal event `hr` records (R14, R19, R23, R112). -/
def Obligations.EveryStepKeepsTheInvariant : Prop :=
  (∀ s t : State, CoreInv s → step s = .next t → CoreInv t) ∧
  (∀ (opc : OpcodeMap) (s t : State), CoreInv s → cycle opc s = .next t → CoreInv t)

/-- Every state a run of a loaded image reaches meets the invariant. -/
def Obligations.EveryStateARunReachesMeetsTheInvariant : Prop :=
  ∀ (opc : OpcodeMap) (image : List Byte) (c : Session) (t : State),
    Session.load image ⟨State.reset, .ready⟩ = .next c → Steps opc c.core t → CoreInv t

/-- Every transaction of the host and every step, accepted from a session that meets the invariant of its phase, gives
one that meets the invariant of the phase it is then in: after a reset exactly the state reset leaves, after a load
nothing but memory changed from it, in a run `hr` `NONE`, at the end a terminal state, and `CoreInv` from the reset on
(R28, R76, R130, R133). -/
def Obligations.EveryTransactionAndStepKeepsTheSessionInvariant : Prop :=
  ∀ (opc : OpcodeMap) (e : SessionEvent) (c d : Session), SessionInv c → c.apply opc e = .next d → SessionInv d

/-- Whatever a core holds before its first reset, every session its transactions and steps lead to meets the invariant
of its phase, and `CoreInv` wherever a reset has come first; nothing but a reset leaves the phase before it (R131). -/
def Obligations.EverySessionFromPowerUpMeetsItsInvariant : Prop :=
  ∀ (opc : OpcodeMap) (es : List SessionEvent) (s : State) (c : Session),
    SessionTrace opc es ⟨s, .neverReset⟩ c →
      SessionInv c ∧ (SessionEvent.reset ∈ es → CoreInv c.core) ∧ (SessionEvent.reset ∉ es → es = [] ∧ c = ⟨s, .neverReset⟩)
end

