-- ==== Sys2Proof/Laws/Decode.lean ====
section
/-! SUPPORT. What the decoder and the encoder do, one lemma per function (spec 30_encoding.md). -/

namespace Sys2Proof

theorem Mnemonic.mem_all (m : Mnemonic) : m ∈ Mnemonic.all := by
  cases m <;> decide

/-- A byte is recognised only as a mnemonic whose opcode byte it is. -/
theorem byte_of_recognise {opc : OpcodeMap} {ir : Byte} {m : Mnemonic} (h : recognise opc ir = some m) :
    opc.byte m = ir := by
  simpa using List.find?_some h

/-- A byte is unrecognised exactly when it is no mnemonic's opcode byte (R57). -/
theorem recognise_eq_none {opc : OpcodeMap} {ir : Byte} : recognise opc ir = none ↔ ∀ m, opc.byte m ≠ ir := by
  simp only [recognise, List.find?_eq_none, beq_iff_eq]
  exact ⟨fun h m => h m m.mem_all, fun h m _ => h m⟩

/-- Under a valid map the opcode bytes are distinct (R54 b). -/
theorem OpcodeMap.Valid.byte_inj {opc : OpcodeMap} (h : opc.Valid) {m n : Mnemonic} (e : opc.byte m = opc.byte n) :
    m = n :=
  List.inj_on_of_nodup_map h.2 m.mem_all n.mem_all e

/-- Under a valid map every opcode byte is recognised as its own mnemonic (R71). -/
theorem recognise_byte {opc : OpcodeMap} (h : opc.Valid) (m : Mnemonic) : recognise opc (opc.byte m) = some m := by
  cases hr : recognise opc (opc.byte m) with
  | none => exact absurd rfl (recognise_eq_none.1 hr m)
  | some n => rw [h.byte_inj (byte_of_recognise hr)]

theorem Mnemonic.operandCount_le (m : Mnemonic) : m.operandCount ≤ 2 := by
  cases m <;> decide

theorem Instr.length_operands (i : Instr) : i.operands.length = i.mnemonic.operandCount := by
  cases i <;> rfl

end Sys2Proof
end

