-- ==== Sys2Proof/Laws/State.lean ====
section
/-! SUPPORT. One lemma per field per update of State, so that no proof unfolds a record update. The spec's own sense
of each update stands at its definition in Machine/Ops.lean. -/

namespace Sys2Proof.Machine

variable (s : State)

/-! ## `setReg` -/

@[simp] theorem State.setReg_x (r : RegIdx) (v : Byte) : (s.setReg r v).x = s.x.set r v := rfl
@[simp] theorem State.setReg_pc (r : RegIdx) (v : Byte) : (s.setReg r v).pc = s.pc := rfl
@[simp] theorem State.setReg_fl (r : RegIdx) (v : Byte) : (s.setReg r v).fl = s.fl := rfl
@[simp] theorem State.setReg_mem (r : RegIdx) (v : Byte) : (s.setReg r v).mem = s.mem := rfl
@[simp] theorem State.setReg_hr (r : RegIdx) (v : Byte) : (s.setReg r v).hr = s.hr := rfl
@[simp] theorem State.setReg_out (r : RegIdx) (v : Byte) : (s.setReg r v).out = s.out := rfl
@[simp] theorem State.setReg_diag (r : RegIdx) (v : Byte) : (s.setReg r v).diag = s.diag := rfl

/-! ## `memWrite` -/

@[simp] theorem State.memWrite_x (a : Addr) (v : Byte) : (s.memWrite a v).x = s.x := rfl
@[simp] theorem State.memWrite_pc (a : Addr) (v : Byte) : (s.memWrite a v).pc = s.pc := rfl
@[simp] theorem State.memWrite_fl (a : Addr) (v : Byte) : (s.memWrite a v).fl = s.fl := rfl
@[simp] theorem State.memWrite_mem (a : Addr) (v : Byte) : (s.memWrite a v).mem = s.mem.write a.toNat v := rfl
@[simp] theorem State.memWrite_hr (a : Addr) (v : Byte) : (s.memWrite a v).hr = s.hr := rfl
@[simp] theorem State.memWrite_out (a : Addr) (v : Byte) : (s.memWrite a v).out = s.out := rfl
@[simp] theorem State.memWrite_diag (a : Addr) (v : Byte) : (s.memWrite a v).diag = s.diag := rfl

/-! ## `advance` -/

@[simp] theorem State.advance_x (n : Nat) : (s.advance n).x = s.x := rfl
@[simp] theorem State.advance_pc (n : Nat) : (s.advance n).pc = s.pc + 1 + n := rfl
@[simp] theorem State.advance_fl (n : Nat) : (s.advance n).fl = s.fl := rfl
@[simp] theorem State.advance_mem (n : Nat) : (s.advance n).mem = s.mem := rfl
@[simp] theorem State.advance_hr (n : Nat) : (s.advance n).hr = s.hr := rfl
@[simp] theorem State.advance_out (n : Nat) : (s.advance n).out = s.out := rfl
@[simp] theorem State.advance_diag (n : Nat) : (s.advance n).diag = s.diag := rfl

/-! ## `jumpTo` -/

@[simp] theorem State.jumpTo_x (t : Int) : (s.jumpTo t).x = s.x := rfl
@[simp] theorem State.jumpTo_pc (t : Int) : (s.jumpTo t).pc = t := rfl
@[simp] theorem State.jumpTo_fl (t : Int) : (s.jumpTo t).fl = s.fl := rfl
@[simp] theorem State.jumpTo_mem (t : Int) : (s.jumpTo t).mem = s.mem := rfl
@[simp] theorem State.jumpTo_hr (t : Int) : (s.jumpTo t).hr = s.hr := rfl
@[simp] theorem State.jumpTo_out (t : Int) : (s.jumpTo t).out = s.out := rfl
@[simp] theorem State.jumpTo_diag (t : Int) : (s.jumpTo t).diag = s.diag := rfl

/-! ## `setFl` -/

@[simp] theorem State.setFl_x (v : Byte) : (s.setFl v).x = s.x := rfl
@[simp] theorem State.setFl_pc (v : Byte) : (s.setFl v).pc = s.pc := rfl
@[simp] theorem State.setFl_fl (v : Byte) : (s.setFl v).fl = v := rfl
@[simp] theorem State.setFl_mem (v : Byte) : (s.setFl v).mem = s.mem := rfl
@[simp] theorem State.setFl_hr (v : Byte) : (s.setFl v).hr = s.hr := rfl
@[simp] theorem State.setFl_out (v : Byte) : (s.setFl v).out = s.out := rfl
@[simp] theorem State.setFl_diag (v : Byte) : (s.setFl v).diag = s.diag := rfl

/-! ## `emitOut` -/

@[simp] theorem State.emitOut_x (v : Byte) : (s.emitOut v).x = s.x := rfl
@[simp] theorem State.emitOut_pc (v : Byte) : (s.emitOut v).pc = s.pc := rfl
@[simp] theorem State.emitOut_fl (v : Byte) : (s.emitOut v).fl = s.fl := rfl
@[simp] theorem State.emitOut_mem (v : Byte) : (s.emitOut v).mem = s.mem := rfl
@[simp] theorem State.emitOut_hr (v : Byte) : (s.emitOut v).hr = s.hr := rfl
@[simp] theorem State.emitOut_out (v : Byte) : (s.emitOut v).out = s.out ++ [v] := rfl
@[simp] theorem State.emitOut_diag (v : Byte) : (s.emitOut v).diag = s.diag := rfl

/-! ## `emitDiag` -/

@[simp] theorem State.emitDiag_x (e : DiagEvent) : (s.emitDiag e).x = s.x := rfl
@[simp] theorem State.emitDiag_pc (e : DiagEvent) : (s.emitDiag e).pc = s.pc := rfl
@[simp] theorem State.emitDiag_fl (e : DiagEvent) : (s.emitDiag e).fl = s.fl := rfl
@[simp] theorem State.emitDiag_mem (e : DiagEvent) : (s.emitDiag e).mem = s.mem := rfl
@[simp] theorem State.emitDiag_hr (e : DiagEvent) : (s.emitDiag e).hr = s.hr := rfl
@[simp] theorem State.emitDiag_out (e : DiagEvent) : (s.emitDiag e).out = s.out := rfl
@[simp] theorem State.emitDiag_diag (e : DiagEvent) : (s.emitDiag e).diag = s.diag ++ [e] := rfl

/-! ## `setHr` -/

@[simp] theorem State.setHr_x (h : HaltReason) : (s.setHr h).x = s.x := rfl
@[simp] theorem State.setHr_pc (h : HaltReason) : (s.setHr h).pc = s.pc := rfl
@[simp] theorem State.setHr_fl (h : HaltReason) : (s.setHr h).fl = s.fl := rfl
@[simp] theorem State.setHr_mem (h : HaltReason) : (s.setHr h).mem = s.mem := rfl
@[simp] theorem State.setHr_hr (h : HaltReason) : (s.setHr h).hr = h := rfl
@[simp] theorem State.setHr_out (h : HaltReason) : (s.setHr h).out = s.out := rfl
@[simp] theorem State.setHr_diag (h : HaltReason) : (s.setHr h).diag = s.diag := rfl

/-! ## `raiseFatal` -/

@[simp] theorem State.raiseFatal_x (e : FatalError) : (s.raiseFatal e).x = s.x := rfl
@[simp] theorem State.raiseFatal_pc (e : FatalError) : (s.raiseFatal e).pc = s.pc := rfl
@[simp] theorem State.raiseFatal_fl (e : FatalError) : (s.raiseFatal e).fl = s.fl := rfl
@[simp] theorem State.raiseFatal_mem (e : FatalError) : (s.raiseFatal e).mem = s.mem := rfl
@[simp] theorem State.raiseFatal_hr (e : FatalError) : (s.raiseFatal e).hr = e.haltReason s.pc := rfl
@[simp] theorem State.raiseFatal_out (e : FatalError) : (s.raiseFatal e).out = s.out := rfl
@[simp] theorem State.raiseFatal_diag (e : FatalError) : (s.raiseFatal e).diag = s.diag ++ [e.event s.pc] := rfl

/-! ## `raiseStackUnderflow` -/

@[simp] theorem State.raiseStackUnderflow_x : s.raiseStackUnderflow.x = s.x := rfl
@[simp] theorem State.raiseStackUnderflow_pc : s.raiseStackUnderflow.pc = s.pc := rfl
@[simp] theorem State.raiseStackUnderflow_fl : s.raiseStackUnderflow.fl = s.fl := rfl
@[simp] theorem State.raiseStackUnderflow_mem : s.raiseStackUnderflow.mem = s.mem := rfl
@[simp] theorem State.raiseStackUnderflow_hr : s.raiseStackUnderflow.hr = s.hr := rfl
@[simp] theorem State.raiseStackUnderflow_out : s.raiseStackUnderflow.out = s.out := rfl
@[simp] theorem State.raiseStackUnderflow_diag : s.raiseStackUnderflow.diag = s.diag ++ [.stackUnderflow s.pc] := rfl

/-! ## `spDecrement` -/

@[simp] theorem State.spDecrement_x : s.spDecrement.x = s.x.set spReg (s.sp - 1) := rfl
@[simp] theorem State.spDecrement_pc : s.spDecrement.pc = s.pc := rfl
@[simp] theorem State.spDecrement_fl : s.spDecrement.fl = s.fl := rfl
@[simp] theorem State.spDecrement_mem : s.spDecrement.mem = s.mem := rfl
@[simp] theorem State.spDecrement_hr : s.spDecrement.hr = s.hr := rfl
@[simp] theorem State.spDecrement_out : s.spDecrement.out = s.out := rfl
@[simp] theorem State.spDecrement_diag : s.spDecrement.diag = s.diag := rfl

/-! ## `spIncrement` -/

@[simp] theorem State.spIncrement_x : s.spIncrement.x = s.x.set spReg (s.sp + 1) := rfl
@[simp] theorem State.spIncrement_pc : s.spIncrement.pc = s.pc := rfl
@[simp] theorem State.spIncrement_fl : s.spIncrement.fl = s.fl := rfl
@[simp] theorem State.spIncrement_mem : s.spIncrement.mem = s.mem := rfl
@[simp] theorem State.spIncrement_hr : s.spIncrement.hr = s.hr := rfl
@[simp] theorem State.spIncrement_out : s.spIncrement.out = s.out := rfl
@[simp] theorem State.spIncrement_diag : s.spIncrement.diag = s.diag := rfl

/-! ## `spInitIfZero` -/

@[simp] theorem State.spInitIfZero_pc : s.spInitIfZero.pc = s.pc := by
  unfold State.spInitIfZero; split <;> rfl
@[simp] theorem State.spInitIfZero_fl : s.spInitIfZero.fl = s.fl := by
  unfold State.spInitIfZero; split <;> rfl
@[simp] theorem State.spInitIfZero_mem : s.spInitIfZero.mem = s.mem := by
  unfold State.spInitIfZero; split <;> rfl
@[simp] theorem State.spInitIfZero_hr : s.spInitIfZero.hr = s.hr := by
  unfold State.spInitIfZero; split <;> rfl
@[simp] theorem State.spInitIfZero_out : s.spInitIfZero.out = s.out := by
  unfold State.spInitIfZero; split <;> rfl
@[simp] theorem State.spInitIfZero_diag : s.spInitIfZero.diag = s.diag := by
  unfold State.spInitIfZero; split <;> rfl

/-! ## `spForPush` -/

@[simp] theorem State.spForPush_pc : s.spForPush.pc = s.pc := by
  simp [State.spForPush]
@[simp] theorem State.spForPush_fl : s.spForPush.fl = s.fl := by
  simp [State.spForPush]
@[simp] theorem State.spForPush_mem : s.spForPush.mem = s.mem := by
  simp [State.spForPush]
@[simp] theorem State.spForPush_hr : s.spForPush.hr = s.hr := by
  simp [State.spForPush]
@[simp] theorem State.spForPush_out : s.spForPush.out = s.out := by
  simp [State.spForPush]
@[simp] theorem State.spForPush_diag : s.spForPush.diag = s.diag := by
  simp [State.spForPush]

/-! ## The register and memory views under updates that touch neither -/

@[simp] theorem State.setReg_memRead (r : RegIdx) (v : Byte) (b : Addr) : (s.setReg r v).memRead b = s.memRead b := rfl
@[simp] theorem State.memWrite_reg (a : Addr) (v : Byte) (q : RegIdx) : (s.memWrite a v).reg q = s.reg q := rfl
@[simp] theorem State.memWrite_sp (a : Addr) (v : Byte) : (s.memWrite a v).sp = s.sp := rfl
@[simp] theorem State.advance_reg (n : Nat) (q : RegIdx) : (s.advance n).reg q = s.reg q := rfl
@[simp] theorem State.advance_sp (n : Nat) : (s.advance n).sp = s.sp := rfl
@[simp] theorem State.advance_memRead (n : Nat) (b : Addr) : (s.advance n).memRead b = s.memRead b := rfl
@[simp] theorem State.jumpTo_reg (t : Int) (q : RegIdx) : (s.jumpTo t).reg q = s.reg q := rfl
@[simp] theorem State.jumpTo_sp (t : Int) : (s.jumpTo t).sp = s.sp := rfl
@[simp] theorem State.jumpTo_memRead (t : Int) (b : Addr) : (s.jumpTo t).memRead b = s.memRead b := rfl
@[simp] theorem State.setFl_reg (v : Byte) (q : RegIdx) : (s.setFl v).reg q = s.reg q := rfl
@[simp] theorem State.setFl_sp (v : Byte) : (s.setFl v).sp = s.sp := rfl
@[simp] theorem State.setFl_memRead (v : Byte) (b : Addr) : (s.setFl v).memRead b = s.memRead b := rfl
@[simp] theorem State.emitOut_reg (v : Byte) (q : RegIdx) : (s.emitOut v).reg q = s.reg q := rfl
@[simp] theorem State.emitOut_sp (v : Byte) : (s.emitOut v).sp = s.sp := rfl
@[simp] theorem State.emitOut_memRead (v : Byte) (b : Addr) : (s.emitOut v).memRead b = s.memRead b := rfl
@[simp] theorem State.emitDiag_reg (e : DiagEvent) (q : RegIdx) : (s.emitDiag e).reg q = s.reg q := rfl
@[simp] theorem State.emitDiag_sp (e : DiagEvent) : (s.emitDiag e).sp = s.sp := rfl
@[simp] theorem State.emitDiag_memRead (e : DiagEvent) (b : Addr) : (s.emitDiag e).memRead b = s.memRead b := rfl
@[simp] theorem State.setHr_reg (h : HaltReason) (q : RegIdx) : (s.setHr h).reg q = s.reg q := rfl
@[simp] theorem State.setHr_sp (h : HaltReason) : (s.setHr h).sp = s.sp := rfl
@[simp] theorem State.setHr_memRead (h : HaltReason) (b : Addr) : (s.setHr h).memRead b = s.memRead b := rfl
@[simp] theorem State.raiseFatal_reg (e : FatalError) (q : RegIdx) : (s.raiseFatal e).reg q = s.reg q := rfl
@[simp] theorem State.raiseFatal_sp (e : FatalError) : (s.raiseFatal e).sp = s.sp := rfl
@[simp] theorem State.raiseFatal_memRead (e : FatalError) (b : Addr) : (s.raiseFatal e).memRead b = s.memRead b := rfl
@[simp] theorem State.raiseStackUnderflow_reg (q : RegIdx) : s.raiseStackUnderflow.reg q = s.reg q := rfl
@[simp] theorem State.raiseStackUnderflow_sp : s.raiseStackUnderflow.sp = s.sp := rfl
@[simp] theorem State.raiseStackUnderflow_memRead (b : Addr) : s.raiseStackUnderflow.memRead b = s.memRead b := rfl
@[simp] theorem State.spDecrement_memRead (b : Addr) : s.spDecrement.memRead b = s.memRead b := rfl
@[simp] theorem State.spIncrement_memRead (b : Addr) : s.spIncrement.memRead b = s.memRead b := rfl
@[simp] theorem State.spInitIfZero_memRead (b : Addr) : s.spInitIfZero.memRead b = s.memRead b := by
  simp [State.memRead]
@[simp] theorem State.spForPush_memRead (b : Addr) : s.spForPush.memRead b = s.memRead b := by
  simp [State.memRead]

/-! ## The state reset leaves -/

@[simp] theorem State.reset_reg (q : RegIdx) : State.reset.reg q = 0 := by
  revert q; decide
@[simp] theorem State.reset_pc : State.reset.pc = 0 := rfl
@[simp] theorem State.reset_fl : State.reset.fl = 0 := rfl
@[simp] theorem State.reset_mem : State.reset.mem = [] := rfl
@[simp] theorem State.reset_hr : State.reset.hr = .none := rfl
@[simp] theorem State.reset_out : State.reset.out = [] := rfl
@[simp] theorem State.reset_diag : State.reset.diag = [] := rfl

end Sys2Proof.Machine
end

