-- ==== Sys2Proof/Laws/Memory.lean ====
section
/-! SUPPORT. The laws of memory: a read after a store, the canonical form kept by every memory operation, and what a
fetch or a load makes of it (spec 20_memory.md R30, R31). -/

namespace Sys2Proof.Machine

/-! ## Reading after an operation -/

@[simp] theorem Memory.read_nil (a : Nat) : Memory.read [] a = Memory.unlisted := rfl

theorem Memory.read_erase (m : Memory) (a b : Nat) :
    (m.erase a).read b = if b = a then Memory.unlisted else m.read b := by
  induction m with
  | nil => simp [Memory.erase]
  | cons c m ih =>
    obtain ⟨k, w⟩ := c
    by_cases hk : a = k
    · subst hk
      simp only [Memory.erase, if_true, ih, Memory.read]
      split <;> simp_all
    · simp only [Memory.erase, if_neg hk, Memory.read, ih]
      by_cases hb : b = k
      · simp [hb, Ne.symm hk]
      · simp [hb]

theorem Memory.read_insert (m : Memory) (a b : Nat) (v : Byte) (hne : ∀ c ∈ m, c.1 ≠ a) :
    (m.insert a v).read b = if b = a then v else m.read b := by
  induction m with
  | nil => simp [Memory.insert, Memory.read]
  | cons c m ih =>
    obtain ⟨k, w⟩ := c
    have hk : k ≠ a := hne (k, w) (by simp)
    have hrest : ∀ c ∈ m, c.1 ≠ a := fun c hc => hne c (by simp [hc])
    by_cases hlt : a < k
    · simp [Memory.insert, if_pos hlt, Memory.read]
    · simp only [Memory.insert, if_neg hlt, Memory.read, ih hrest]
      by_cases hb : b = k
      · subst hb; simp [hk]
      · simp [hb]

theorem Memory.erase_ne (m : Memory) (a : Nat) : ∀ c ∈ m.erase a, c.1 ≠ a := by
  induction m with
  | nil => simp [Memory.erase]
  | cons c m ih =>
    obtain ⟨k, w⟩ := c
    by_cases hk : a = k
    · rw [Memory.erase, if_pos hk]
      exact ih
    · simp only [Memory.erase, if_neg hk, List.mem_cons]
      rintro c (rfl | hc)
      · exact fun h => hk h.symm
      · exact ih c hc

/-- A read after a store: the stored byte at its address, every other address as before (R31). -/
@[simp] theorem Memory.read_write (m : Memory) (a b : Nat) (v : Byte) :
    (m.write a v).read b = if b = a then v else m.read b := by
  unfold Memory.write
  split
  · next h => rw [Memory.read_erase, h]
  · rw [Memory.read_insert _ _ _ _ (m.erase_ne a), Memory.read_erase]
    split <;> rfl

@[simp] theorem State.memRead_memWrite (s : State) (a b : Addr) (v : Byte) :
    (s.memWrite a v).memRead b = if b = a then v else s.memRead b := by
  simp [State.memRead, BitVec.toNat_inj]

/-! ## The canonical form -/

/-- What the canonical form says of a memory. -/
theorem Memory.wf_iff (m : Memory) :
    m.wf = true ↔ m.Pairwise (fun c d => c.1 < d.1) ∧ ∀ c ∈ m, c.1 < 256 ∧ c.2 ≠ Memory.unlisted := by
  simp [Memory.wf, List.all_eq_true]

@[simp] theorem Memory.wf_nil : Memory.wf [] = true := rfl

theorem Memory.mem_erase {m : Memory} {a : Nat} {c : Host.Cell} (h : c ∈ m.erase a) : c ∈ m := by
  induction m with
  | nil => simp [Memory.erase] at h
  | cons d m ih =>
    obtain ⟨k, w⟩ := d
    simp only [Memory.erase] at h
    split at h
    · exact List.mem_cons_of_mem _ (ih h)
    · rcases List.mem_cons.1 h with rfl | h
      · simp
      · exact List.mem_cons_of_mem _ (ih h)

theorem Memory.pairwise_erase (m : Memory) (a : Nat) (h : m.Pairwise fun c d => c.1 < d.1) :
    (m.erase a).Pairwise fun c d => c.1 < d.1 := by
  induction m with
  | nil => simp [Memory.erase]
  | cons d m ih =>
    obtain ⟨k, w⟩ := d
    rw [List.pairwise_cons] at h
    simp only [Memory.erase]
    split
    · exact ih h.2
    · exact List.pairwise_cons.2 ⟨fun c hc => h.1 c (Memory.mem_erase hc), ih h.2⟩

theorem Memory.mem_insert {m : Memory} {a : Nat} {v : Byte} {c : Host.Cell} (h : c ∈ m.insert a v) :
    c = (a, v) ∨ c ∈ m := by
  induction m with
  | nil => simpa [Memory.insert] using h
  | cons d m ih =>
    obtain ⟨k, w⟩ := d
    simp only [Memory.insert] at h
    split at h
    · simpa using h
    · rcases List.mem_cons.1 h with rfl | h
      · simp
      · rcases ih h with h | h <;> simp [h]

theorem Memory.pairwise_insert (m : Memory) (a : Nat) (v : Byte) (h : m.Pairwise fun c d => c.1 < d.1)
    (hne : ∀ c ∈ m, c.1 ≠ a) : (m.insert a v).Pairwise fun c d => c.1 < d.1 := by
  induction m with
  | nil => simp [Memory.insert]
  | cons d m ih =>
    obtain ⟨k, w⟩ := d
    have hp := List.pairwise_cons.1 h
    have hk : k ≠ a := hne (k, w) (by simp)
    simp only [Memory.insert]
    split
    · next hlt =>
      refine List.pairwise_cons.2 ⟨fun c hc => ?_, h⟩
      rcases List.mem_cons.1 hc with rfl | hc
      · exact hlt
      · exact Nat.lt_trans hlt (hp.1 c hc)
    · next hlt =>
      refine List.pairwise_cons.2 ⟨fun c hc => ?_, ih hp.2 fun c hc => hne c (by simp [hc])⟩
      rcases Memory.mem_insert hc with rfl | hc
      · show k < a
        omega
      · exact hp.1 c hc

/-- A store keeps the canonical form. -/
theorem Memory.wf_write {m : Memory} (h : m.wf = true) {a : Nat} (ha : a < 256) (v : Byte) :
    (m.write a v).wf = true := by
  obtain ⟨hp, hc⟩ := (Memory.wf_iff m).1 h
  unfold Memory.write
  split
  · exact (Memory.wf_iff _).2 ⟨m.pairwise_erase a hp, fun c hm => hc c (Memory.mem_erase hm)⟩
  · next hv =>
    refine (Memory.wf_iff _).2 ⟨Memory.pairwise_insert _ a v (m.pairwise_erase a hp) (m.erase_ne a), fun c hm => ?_⟩
    rcases Memory.mem_insert hm with rfl | hm
    · exact ⟨ha, hv⟩
    · exact hc c (Memory.mem_erase hm)

theorem State.wf_memWrite {s : State} (h : s.mem.wf = true) (a : Addr) (v : Byte) :
    (s.memWrite a v).mem.wf = true :=
  Memory.wf_write h a.isLt v

/-- A load or a placing of bytes keeps the canonical form. -/
theorem State.wf_storeBytes (bs : List Byte) (a : Int) (s : State) (h : s.mem.wf = true) :
    (s.storeBytes bs a).mem.wf = true := by
  induction bs generalizing a s with
  | nil => exact h
  | cons b bs ih =>
    simp only [State.storeBytes]
    split
    · exact h
    · exact ih _ _ (State.wf_memWrite h _ _)

/-! ## Addresses -/

/-- Every address an integer forms is its own value, in range; out of range it forms none (R32). -/
theorem addr?_eq_some {a : Int} {p : Addr} : addr? a = some p ↔ a = p.toNat := by
  unfold addr?
  constructor
  · intro h
    split at h
    · next hr =>
      cases h
      rw [BitVec.toNat_ofInt]
      omega
    · cases h
  · intro h
    have := p.isLt
    rw [if_pos (by omega), h]
    simp

theorem addr?_eq_none {a : Int} : addr? a = none ↔ a < 0 ∨ 255 < a := by
  unfold addr?
  split <;> simp <;> omega

@[simp] theorem addr?_toNat (p : Addr) : addr? (p.toNat : Int) = some p := addr?_eq_some.2 rfl

end Sys2Proof.Machine
end

