-- ==== Sys2Proof/Laws/Ops.lean ====
section
/-! SUPPORT. What the shared operations do: the register file, the operand forms, the stack pointer logic, the entry
of an error. Provers cite these and do not unfold the operations. -/

namespace Sys2Proof.Machine

/-! ## The register file (spec R10) -/

/-- Reading after a write: the written register, every other as before. -/
@[simp] theorem State.reg_setReg (s : State) (r q : RegIdx) (v : Byte) :
    (s.setReg r v).reg q = if q = r then v else s.reg q := by
  simp only [State.reg, State.setReg, Fin.getElem_fin, Vector.getElem_set, Fin.ext_iff, eq_comm]

/-- Two states with the same registers have the same register file. -/
theorem State.x_ext {s t : State} (h : ∀ q, s.reg q = t.reg q) : s.x = t.x := by
  apply Vector.ext
  intro k hk
  exact h ⟨k, hk⟩

theorem State.sp_eq (s : State) : s.sp = s.reg spReg := rfl

@[simp] theorem State.sp_setReg (s : State) (r : RegIdx) (v : Byte) :
    (s.setReg r v).sp = if spReg = r then v else s.sp := by
  simp [State.sp]

/-! ## Register operands (R53, R70) -/

/-- An operand byte names a register exactly when it is that register's byte. -/
theorem regIdx?_eq_some {b : Byte} {r : RegIdx} : regIdx? b = some r ↔ b = r.toByte := by
  unfold regIdx?
  constructor
  · intro h
    split at h
    · cases h
      show b = BitVec.ofNat 8 b.toNat
      simp
    · cases h
  · rintro rfl
    have hr := r.isLt
    have : (BitVec.ofNat 8 r.val).toNat = r.val := by
      rw [BitVec.toNat_ofNat]
      omega
    simp [this]

@[simp] theorem regIdx?_toByte (r : RegIdx) : regIdx? r.toByte = some r := regIdx?_eq_some.2 rfl

theorem regIdx?_eq_none {b : Byte} : regIdx? b = none ↔ 7 < b.toNat := by
  unfold regIdx?
  split <;> simp <;> omega

/-- A register operand 0 to 7 runs the rule on that register. -/
@[simp] theorem withReg_toByte (r : RegIdx) (s : State) (rule : RegIdx → State) :
    withReg r.toByte s rule = rule r := by
  rw [withReg, regIdx?_toByte]

/-- A register operand above 7 is the fatal error, whatever the rule. -/
theorem withReg_of_gt {b : Byte} (h : 7 < b.toNat) (s : State) (rule : RegIdx → State) :
    withReg b s rule = s.raiseFatal (.outOfBoundsAddress .register b.toNat) := by
  rw [withReg, regIdx?_eq_none.2 h]

/-- Everything `withReg` can do: the rule ran on the register named, or the error was raised. -/
theorem withReg_cases (b : Byte) (s : State) (rule : RegIdx → State) :
    (∃ r : RegIdx, b = r.toByte ∧ withReg b s rule = rule r) ∨
      (7 < b.toNat ∧ withReg b s rule = s.raiseFatal (.outOfBoundsAddress .register b.toNat)) := by
  cases h : regIdx? b with
  | none => exact .inr ⟨regIdx?_eq_none.1 h, by rw [withReg, h]⟩
  | some r => exact .inl ⟨r, regIdx?_eq_some.1 h, by rw [withReg, h]⟩

@[simp] theorem withRegs_toByte (ra rb : RegIdx) (s : State) (rule : RegIdx → RegIdx → State) :
    withRegs ra.toByte rb.toByte s rule = rule ra rb := by
  simp [withRegs]

/-- Everything `withRegs` can do: the rule ran on both registers, or the first operand above 7 raised the error. -/
theorem withRegs_cases (a b : Byte) (s : State) (rule : RegIdx → RegIdx → State) :
    (∃ ra rb : RegIdx, a = ra.toByte ∧ b = rb.toByte ∧ withRegs a b s rule = rule ra rb) ∨
      (7 < a.toNat ∧ withRegs a b s rule = s.raiseFatal (.outOfBoundsAddress .register a.toNat)) ∨
      (a.toNat < 8 ∧ 7 < b.toNat ∧ withRegs a b s rule = s.raiseFatal (.outOfBoundsAddress .register b.toNat)) := by
  rcases withReg_cases a s (fun ra => withReg b s fun rb => rule ra rb) with ⟨ra, ha, h⟩ | ⟨ha, h⟩
  · rcases withReg_cases b s (rule ra) with ⟨rb, hb, h'⟩ | ⟨hb, h'⟩
    · exact .inl ⟨ra, rb, ha, hb, by rw [withRegs, h, h']⟩
    · refine .inr (.inr ⟨?_, hb, by rw [withRegs, h, h']⟩)
      have := ra.isLt
      rw [ha, BitVec.toNat_ofNat]
      omega
  · exact .inr (.inl ⟨ha, by rw [withRegs, h]⟩)

/-! ## The stack pointer logic (R90) -/

/-- SP after what PUSH and CALL do to it first: from 0 it is one below the sentinel, else one below itself. -/
@[simp] theorem State.spForPush_sp (s : State) :
    s.spForPush.sp = if s.sp = 0 then stackTop - 1 else s.sp - 1 := by
  unfold State.spForPush State.spDecrement State.spInitIfZero
  split <;> simp_all

/-- Registers after it: only register 7 moved. -/
@[simp] theorem State.spForPush_reg (s : State) (q : RegIdx) :
    s.spForPush.reg q = if q = spReg then (if s.sp = 0 then stackTop - 1 else s.sp - 1) else s.reg q := by
  unfold State.spForPush State.spDecrement State.spInitIfZero
  split <;> simp_all

@[simp] theorem State.spIncrement_reg (s : State) (q : RegIdx) :
    s.spIncrement.reg q = if q = spReg then s.sp + 1 else s.reg q := by
  simp [State.spIncrement]

@[simp] theorem State.spIncrement_sp (s : State) : s.spIncrement.sp = s.sp + 1 := by
  simp [State.spIncrement]

/-- POP reports the error on the two values 0 and 0xF4 only (R93). -/
theorem stackEmpty_iff (s : State) : stackEmpty s = true ↔ s.sp = 0 ∨ s.sp = stackTop := by
  simp [stackEmpty]

@[simp] theorem storeAtSp_memRead (v : Byte) (s : State) (b : Addr) :
    (storeAtSp v s).memRead b = if b = s.sp then v else s.memRead b := by
  simp [storeAtSp]

@[simp] theorem storeAtSp_x (v : Byte) (s : State) : (storeAtSp v s).x = s.x := rfl
@[simp] theorem storeAtSp_reg (v : Byte) (s : State) (q : RegIdx) : (storeAtSp v s).reg q = s.reg q := rfl
@[simp] theorem storeAtSp_pc (v : Byte) (s : State) : (storeAtSp v s).pc = s.pc := rfl
@[simp] theorem storeAtSp_fl (v : Byte) (s : State) : (storeAtSp v s).fl = s.fl := rfl
@[simp] theorem storeAtSp_hr (v : Byte) (s : State) : (storeAtSp v s).hr = s.hr := rfl
@[simp] theorem storeAtSp_out (v : Byte) (s : State) : (storeAtSp v s).out = s.out := rfl
@[simp] theorem storeAtSp_diag (v : Byte) (s : State) : (storeAtSp v s).diag = s.diag := rfl
@[simp] theorem storeAtSp_mem (v : Byte) (s : State) : (storeAtSp v s).mem = s.mem.write s.sp.toNat v := rfl

/-! ## Errors (R116) -/

@[simp] theorem FatalError.fatalEvents_haltReason (e : FatalError) (pc : Int) :
    (e.haltReason pc).fatalEvents = [e.event pc] := by
  cases e <;> rfl

@[simp] theorem FatalError.isFatal_event (e : FatalError) (pc : Int) : (e.event pc).isFatal = true := by
  cases e <;> rfl

@[simp] theorem FatalError.isFatal_haltReason (e : FatalError) (pc : Int) : (e.haltReason pc).isFatal = true := by
  cases e <;> rfl

@[simp] theorem FatalError.haltReason_ne_none (e : FatalError) (pc : Int) : e.haltReason pc ≠ .none := by
  cases e <;> simp [FatalError.haltReason]

/-- Taking a fatal error changes `hr` and `diag` and nothing else. -/
theorem State.tookFatal_raiseFatal (e : FatalError) (s : State) : TookFatal e s (s.raiseFatal e) :=
  ⟨rfl, rfl, rfl, rfl, rfl, fun _ _ => rfl, fun _ => rfl⟩

end Sys2Proof.Machine
end

