-- ==== Sys2Proof/Laws/Exec.lean ====
section
/-! SUPPORT. Each meaning on legal register operands, as the operations it performs in order, and what `exec` and
`cycle` can do at all. -/

namespace Sys2Proof.Machine

variable (s : State)

theorem exec_ldi (r : RegIdx) (v : Byte) :
    exec (.ldi r.toByte v) s = .next ((s.setReg r v).advance 2) := by
  simp only [exec, execLdi, withReg_toByte]

theorem exec_prn (r : RegIdx) :
    exec (.prn r.toByte) s = .next ((s.emitOut (s.reg r)).advance 1) := by
  simp only [exec, execPrn, withReg_toByte]

theorem exec_hlt : exec .hlt s = .next ((s.setHr .hlt).advance 0) := rfl

theorem exec_mul (ra rb : RegIdx) :
    exec (.mul ra.toByte rb.toByte) s = .next ((s.setReg ra (aluMul (s.reg ra) (s.reg rb))).advance 2) := by
  simp only [exec, execMul, aluWriteBack, withRegs_toByte]

theorem exec_add (ra rb : RegIdx) :
    exec (.add ra.toByte rb.toByte) s = .next ((s.setReg ra (aluAdd (s.reg ra) (s.reg rb))).advance 2) := by
  simp only [exec, execAdd, aluWriteBack, withRegs_toByte]

theorem exec_push (r : RegIdx) :
    exec (.push r.toByte) s = .next ((storeAtSp (s.spForPush.reg r) s.spForPush).advance 1) := by
  simp only [exec, execPush, withReg_toByte]

theorem exec_pop_empty (r : RegIdx) (h : s.sp = 0 ∨ s.sp = stackTop) :
    exec (.pop r.toByte) s = .next (s.raiseStackUnderflow.advance 1) := by
  simp only [exec, execPop, withReg_toByte, if_pos ((stackEmpty_iff s).2 h)]

theorem exec_pop (r : RegIdx) (h0 : s.sp ≠ 0) (h1 : s.sp ≠ stackTop) :
    exec (.pop r.toByte) s = .next (((s.setReg r (s.memRead s.sp)).spIncrement).advance 1) := by
  have : ¬ stackEmpty s = true := fun h => ((stackEmpty_iff s).1 h).elim h0 h1
  simp only [exec, execPop, withReg_toByte, if_neg this]

theorem exec_call (r : RegIdx) (h : s.pc ≤ 253) :
    exec (.call r.toByte) s =
      .next ((storeAtSp (BitVec.ofInt 8 (s.pc + 2)) s.spForPush).jumpTo (s.spForPush.reg r).toNat) := by
  have : ¬ returnAddress s > 255 := by
    unfold returnAddress
    omega
  simp only [exec, execCall, withReg_toByte, if_neg this]
  rfl

theorem exec_call_high (r : RegIdx) (h : 253 < s.pc) :
    exec (.call r.toByte) s = .next (s.raiseFatal (.outOfBoundsAddress .returnAddress (s.pc + 2))) := by
  have : returnAddress s > 255 := by
    unfold returnAddress
    omega
  simp only [exec, execCall, withReg_toByte, if_pos this]
  rfl

theorem exec_ret : exec .ret s = .next (s.spIncrement.jumpTo (s.memRead s.sp).toNat) := rfl

theorem exec_cmp (ra rb : RegIdx) :
    exec (.cmp ra.toByte rb.toByte) s = .next ((s.setFl (compareFlags (s.reg ra) (s.reg rb))).advance 2) := by
  simp only [exec, execCmp, withRegs_toByte]

theorem exec_jmp (off : Byte) (r : RegIdx) :
    exec (.jmp off r.toByte) s = .next (s.jumpTo (jumpTarget (s.reg r) off)) := by
  simp only [exec, execJmp, jumpIf, withReg_toByte, if_true]

theorem exec_jeq (off : Byte) (r : RegIdx) :
    exec (.jeq off r.toByte) s =
      .next (if s.equalBit then s.jumpTo (jumpTarget (s.reg r) off) else s.advance 2) := by
  simp only [exec, execJeq, jumpIf, withReg_toByte]

theorem exec_jne (off : Byte) (r : RegIdx) :
    exec (.jne off r.toByte) s =
      .next (if s.equalBit then s.advance 2 else s.jumpTo (jumpTarget (s.reg r) off)) := by
  cases h : s.equalBit <;> simp [exec, execJne, jumpIf, h]

/-- A register operand byte 0 to 7 is the byte of a register: how a proof over operand bytes reaches the lemmas
above. -/
theorem exists_reg_of_lt {b : Byte} (h : b.toNat < 8) : ∃ r : RegIdx, b = r.toByte := by
  cases hr : regIdx? b with
  | none =>
    have := regIdx?_eq_none.1 hr
    omega
  | some r => exact ⟨r, regIdx?_eq_some.1 hr⟩

/-- Everything one step can be: it exists exactly while `hr` is `NONE`, and is the decoded instruction or the error
of a fetch that found none (spec R65, R75). -/
theorem cycle_cases {opc : OpcodeMap} {s t : State} (h : cycle opc s = .next t) :
    s.hr = .none ∧
      ((∃ i rest, decodeWith opc (window s) = .ok (i, rest) ∧ exec i s = .next t) ∨
        (∃ e, decodeWith opc (window s) = .error e ∧ t = s.raiseFatal (fetchError s e))) := by
  unfold cycle at h
  split at h
  · next hn =>
    refine ⟨hn, ?_⟩
    unfold fetchInstr at h
    cases hd : decodeWith opc (window s) with
    | ok p =>
      obtain ⟨i, rest⟩ := p
      rw [hd] at h
      exact .inl ⟨i, rest, rfl, h⟩
    | error e =>
      rw [hd] at h
      cases h
      exact .inr ⟨e, rfl, rfl⟩
  · cases h

/-- What the window holds, by how far `pc` is from the top of memory. -/
theorem window_cases (s : State) :
    (addr? s.pc = none ∧ window s = []) ∨
      (∃ p, addr? s.pc = some p ∧
        ((s.pc = 255 ∧ window s = [s.memRead p]) ∨
          (s.pc = 254 ∧ ∃ q, addr? (s.pc + 1) = some q ∧ window s = [s.memRead p, s.memRead q]) ∨
          (s.pc ≤ 253 ∧ ∃ q r, addr? (s.pc + 1) = some q ∧ addr? (s.pc + 2) = some r ∧
            window s = [s.memRead p, s.memRead q, s.memRead r]))) := by
  cases h0 : addr? s.pc with
  | none => exact .inl ⟨rfl, by simp [window, State.fetchBytes, h0]⟩
  | some p =>
    refine .inr ⟨p, rfl, ?_⟩
    have hp := addr?_eq_some.1 h0
    have hlt := p.isLt
    have e2 : s.pc + 1 + 1 = s.pc + 2 := by omega
    cases h1 : addr? (s.pc + 1) with
    | none =>
      have := addr?_eq_none.1 h1
      exact .inl ⟨by omega, by simp [window, State.fetchBytes, h0, h1]⟩
    | some q =>
      have hq := addr?_eq_some.1 h1
      have hqlt := q.isLt
      refine .inr ?_
      cases h2 : addr? (s.pc + 2) with
      | none =>
        have := addr?_eq_none.1 h2
        exact .inl ⟨by omega, q, rfl, by simp [window, State.fetchBytes, h0, h1, e2, h2]⟩
      | some r =>
        have hr := addr?_eq_some.1 h2
        have hrlt := r.isLt
        exact .inr ⟨by omega, q, r, rfl, rfl, by simp [window, State.fetchBytes, h0, h1, e2, h2]⟩

end Sys2Proof.Machine
end

