-- ==== Sys2Proof/Laws/Effect.lean ====
section
/-! SUPPORT. Everything an instruction can do, said once: with legal register operands it has the effect of its rule,
and otherwise a fatal error was raised. Proofs over all instructions start from `exec_inv`. -/

namespace Sys2Proof.Machine

/-- The effect of each instruction whose checks passed, as the operations it performs in order. -/
inductive Effect (s : State) : Instr → State → Prop where
  | ldi (r : RegIdx) (v : Byte) : Effect s (.ldi r.toByte v) ((s.setReg r v).advance 2)
  | prn (r : RegIdx) : Effect s (.prn r.toByte) ((s.emitOut (s.reg r)).advance 1)
  | hlt : Effect s .hlt ((s.setHr .hlt).advance 0)
  | mul (ra rb : RegIdx) :
      Effect s (.mul ra.toByte rb.toByte) ((s.setReg ra (aluMul (s.reg ra) (s.reg rb))).advance 2)
  | add (ra rb : RegIdx) :
      Effect s (.add ra.toByte rb.toByte) ((s.setReg ra (aluAdd (s.reg ra) (s.reg rb))).advance 2)
  | push (r : RegIdx) : Effect s (.push r.toByte) ((storeAtSp (s.spForPush.reg r) s.spForPush).advance 1)
  | popEmpty (r : RegIdx) (h : s.sp = 0 ∨ s.sp = stackTop) :
      Effect s (.pop r.toByte) (s.raiseStackUnderflow.advance 1)
  | pop (r : RegIdx) (h0 : s.sp ≠ 0) (h1 : s.sp ≠ stackTop) :
      Effect s (.pop r.toByte) (((s.setReg r (s.memRead s.sp)).spIncrement).advance 1)
  | call (r : RegIdx) (h : s.pc ≤ 253) :
      Effect s (.call r.toByte)
        ((storeAtSp (BitVec.ofInt 8 (s.pc + 2)) s.spForPush).jumpTo (s.spForPush.reg r).toNat)
  | ret : Effect s .ret (s.spIncrement.jumpTo (s.memRead s.sp).toNat)
  | cmp (ra rb : RegIdx) :
      Effect s (.cmp ra.toByte rb.toByte) ((s.setFl (compareFlags (s.reg ra) (s.reg rb))).advance 2)
  | jmp (off : Byte) (r : RegIdx) : Effect s (.jmp off r.toByte) (s.jumpTo (jumpTarget (s.reg r) off))
  | jeqTaken (off : Byte) (r : RegIdx) (h : s.equalBit = true) :
      Effect s (.jeq off r.toByte) (s.jumpTo (jumpTarget (s.reg r) off))
  | jeqNot (off : Byte) (r : RegIdx) (h : s.equalBit = false) : Effect s (.jeq off r.toByte) (s.advance 2)
  | jneTaken (off : Byte) (r : RegIdx) (h : s.equalBit = false) :
      Effect s (.jne off r.toByte) (s.jumpTo (jumpTarget (s.reg r) off))
  | jneNot (off : Byte) (r : RegIdx) (h : s.equalBit = true) : Effect s (.jne off r.toByte) (s.advance 2)

/-- Each effect is what `exec` answers. -/
theorem Effect.exec_eq {i : Instr} {s t : State} (h : Effect s i t) : exec i s = .next t := by
  cases h with
  | ldi r v => exact exec_ldi s r v
  | prn r => exact exec_prn s r
  | hlt => exact exec_hlt s
  | mul ra rb => exact exec_mul s ra rb
  | add ra rb => exact exec_add s ra rb
  | push r => exact exec_push s r
  | popEmpty r h => exact exec_pop_empty s r h
  | pop r h0 h1 => exact exec_pop s r h0 h1
  | call r h => exact exec_call s r h
  | ret => exact exec_ret s
  | cmp ra rb => exact exec_cmp s ra rb
  | jmp off r => exact exec_jmp s off r
  | jeqTaken off r h => rw [exec_jeq, if_pos h]
  | jeqNot off r h => rw [exec_jeq, if_neg (by simp [h])]
  | jneTaken off r h => rw [exec_jne, if_neg (by simp [h])]
  | jneNot off r h => rw [exec_jne, if_pos h]

/-- An instruction with legal register operands has its effect, unless it is a CALL too high in memory. -/
theorem effect_of_wellFormed {i : Instr} {s : State} (hw : i.wellFormed = true)
    (hc : i.mnemonic = .call → s.pc ≤ 253) : ∃ t, Effect s i t := by
  have reg : ∀ b : Byte, decide (b.toNat < 8) = true → ∃ r : RegIdx, b = r.toByte :=
    fun b h => exists_reg_of_lt (of_decide_eq_true h)
  have one : ∀ b : Byte, ([b].all fun c => decide (c.toNat < 8)) = true → ∃ r : RegIdx, b = r.toByte :=
    fun b h => reg b (by simpa using h)
  have two : ∀ a b : Byte, ([a, b].all fun c => decide (c.toNat < 8)) = true →
      (∃ r : RegIdx, a = r.toByte) ∧ ∃ r : RegIdx, b = r.toByte := by
    intro a b h
    have h : a.toNat < 8 ∧ b.toNat < 8 := by simpa using h
    exact ⟨exists_reg_of_lt h.1, exists_reg_of_lt h.2⟩
  cases i with
  | ldi b v => obtain ⟨r, rfl⟩ := one b hw; exact ⟨_, .ldi r v⟩
  | prn b => obtain ⟨r, rfl⟩ := one b hw; exact ⟨_, .prn r⟩
  | hlt => exact ⟨_, .hlt⟩
  | mul a b => obtain ⟨⟨ra, rfl⟩, rb, rfl⟩ := two a b hw; exact ⟨_, .mul ra rb⟩
  | add a b => obtain ⟨⟨ra, rfl⟩, rb, rfl⟩ := two a b hw; exact ⟨_, .add ra rb⟩
  | push b => obtain ⟨r, rfl⟩ := one b hw; exact ⟨_, .push r⟩
  | pop b =>
    obtain ⟨r, rfl⟩ := one b hw
    by_cases h0 : s.sp = 0
    · exact ⟨_, .popEmpty r (.inl h0)⟩
    · by_cases h1 : s.sp = stackTop
      · exact ⟨_, .popEmpty r (.inr h1)⟩
      · exact ⟨_, .pop r h0 h1⟩
  | call b => obtain ⟨r, rfl⟩ := one b hw; exact ⟨_, .call r (hc rfl)⟩
  | ret => exact ⟨_, .ret⟩
  | cmp a b => obtain ⟨⟨ra, rfl⟩, rb, rfl⟩ := two a b hw; exact ⟨_, .cmp ra rb⟩
  | jmp off b => obtain ⟨r, rfl⟩ := one b hw; exact ⟨_, .jmp off r⟩
  | jeq off b =>
    obtain ⟨r, rfl⟩ := one b hw
    cases h : s.equalBit
    · exact ⟨_, .jeqNot off r h⟩
    · exact ⟨_, .jeqTaken off r h⟩
  | jne off b =>
    obtain ⟨r, rfl⟩ := one b hw
    cases h : s.equalBit
    · exact ⟨_, .jneTaken off r h⟩
    · exact ⟨_, .jneNot off r h⟩

/-- An instruction with a register operand above 7 raises the error of that operand (spec R70). -/
theorem exec_of_not_wellFormed {i : Instr} (hw : ¬ i.wellFormed = true) :
    ∃ b ∈ i.registerOperands, 7 < b.toNat ∧
      ∀ s, exec i s = .next (s.raiseFatal (.outOfBoundsAddress .register b.toNat)) := by
  have one : ∀ b : Byte, ¬ ([b].all fun c => decide (c.toNat < 8)) = true → 7 < b.toNat := by
    intro b h
    have : ¬ b.toNat < 8 := by simpa using h
    omega
  have two : ∀ a b : Byte, ¬ ([a, b].all fun c => decide (c.toNat < 8)) = true →
      ∃ c ∈ [a, b], 7 < c.toNat ∧ ∀ (s : State) (rule : RegIdx → RegIdx → State),
        withRegs a b s rule = s.raiseFatal (.outOfBoundsAddress .register c.toNat) := by
    intro a b h
    by_cases ha : 7 < a.toNat
    · exact ⟨a, by simp, ha, fun s rule => withReg_of_gt ha s _⟩
    · obtain ⟨ra, rfl⟩ := exists_reg_of_lt (b := a) (by omega)
      have hb : 7 < b.toNat := by
        by_contra hb
        apply h
        simp only [List.all_cons, List.all_nil, Bool.and_true, Bool.and_eq_true, decide_eq_true_eq]
        omega
      exact ⟨b, by simp, hb, fun s rule => by rw [withRegs, withReg_toByte, withReg_of_gt hb]⟩
  cases i with
  | ldi b v => exact ⟨b, List.mem_singleton_self b, one b hw, fun s => by rw [exec, execLdi, withReg_of_gt (one b hw)]⟩
  | prn b => exact ⟨b, List.mem_singleton_self b, one b hw, fun s => by rw [exec, execPrn, withReg_of_gt (one b hw)]⟩
  | hlt => exact absurd rfl hw
  | mul a b =>
    obtain ⟨c, hm, hc, h⟩ := two a b hw
    exact ⟨c, hm, hc, fun s => by rw [exec, execMul, aluWriteBack, h]⟩
  | add a b =>
    obtain ⟨c, hm, hc, h⟩ := two a b hw
    exact ⟨c, hm, hc, fun s => by rw [exec, execAdd, aluWriteBack, h]⟩
  | push b => exact ⟨b, List.mem_singleton_self b, one b hw, fun s => by rw [exec, execPush, withReg_of_gt (one b hw)]⟩
  | pop b => exact ⟨b, List.mem_singleton_self b, one b hw, fun s => by rw [exec, execPop, withReg_of_gt (one b hw)]⟩
  | call b => exact ⟨b, List.mem_singleton_self b, one b hw, fun s => by rw [exec, execCall, withReg_of_gt (one b hw)]⟩
  | ret => exact absurd rfl hw
  | cmp a b =>
    obtain ⟨c, hm, hc, h⟩ := two a b hw
    exact ⟨c, hm, hc, fun s => by rw [exec, execCmp, h]⟩
  | jmp off b =>
    exact ⟨b, List.mem_singleton_self b, one b hw, fun s => by rw [exec, execJmp, jumpIf, withReg_of_gt (one b hw)]⟩
  | jeq off b =>
    exact ⟨b, List.mem_singleton_self b, one b hw, fun s => by rw [exec, execJeq, jumpIf, withReg_of_gt (one b hw)]⟩
  | jne off b =>
    exact ⟨b, List.mem_singleton_self b, one b hw, fun s => by rw [exec, execJne, jumpIf, withReg_of_gt (one b hw)]⟩

/-- Everything an instruction can do: its effect, the error of a register operand above 7, or the return address
error of a CALL. -/
theorem exec_inv {i : Instr} {s t : State} (h : exec i s = .next t) :
    Effect s i t ∨
      (∃ b ∈ i.registerOperands, 7 < b.toNat ∧ t = s.raiseFatal (.outOfBoundsAddress .register b.toNat)) ∨
      (∃ r : RegIdx, i = .call r.toByte ∧ 253 < s.pc ∧
        t = s.raiseFatal (.outOfBoundsAddress .returnAddress (s.pc + 2))) := by
  by_cases hw : i.wellFormed = true
  · by_cases hc : i.mnemonic = .call → s.pc ≤ 253
    · obtain ⟨u, hu⟩ := effect_of_wellFormed hw hc
      rw [hu.exec_eq] at h
      cases h
      exact .inl hu
    · cases i <;> simp only [Instr.mnemonic, reduceCtorEq, false_implies, not_true_eq_false, true_implies] at hc
      next b =>
        obtain ⟨r, rfl⟩ := exists_reg_of_lt (b := b) (by simpa [Instr.wellFormed, Instr.registerOperands] using hw)
        rw [exec_call_high s r (by omega)] at h
        cases h
        exact .inr (.inr ⟨r, rfl, by omega, rfl⟩)
  · obtain ⟨b, hm, hb, he⟩ := exec_of_not_wellFormed hw
    rw [he s] at h
    cases h
    exact .inr (.inl ⟨b, hm, hb, rfl⟩)

end Sys2Proof.Machine
end

