-- ==== Sys2Proof/Laws/Cycle.lean ====
section
/-! SUPPORT. What a step does around `exec`: the fetch that succeeds, the fetch that fails, where an instruction that
was fetched lies, and the accesses of a step. -/

namespace Sys2Proof.Machine

/-! ## Effects -/

/-- An instruction that has its effect had legal register operands. -/
theorem Effect.wellFormed {i : Instr} {s t : State} (h : Effect s i t) : i.wellFormed = true := by
  have legal : ∀ r : RegIdx, decide (r.toByte.toNat < 8) = true := by decide
  cases h <;> simp only [Instr.wellFormed, Instr.registerOperands, List.all_cons, List.all_nil, legal, Bool.and_self]

/-- Of the effects only HLT's changes `hr`. -/
theorem Effect.hr {i : Instr} {s t : State} (h : Effect s i t) :
    (t.hr = s.hr ∧ i ≠ .hlt) ∨ (t.hr = .hlt ∧ i = .hlt) := by
  cases h <;> simp

/-! ## The fetch -/

/-- The window begins with the byte at `pc` where `pc` is an address. -/
theorem window_head {s : State} {p : Addr} (h : s.pc = p.toNat) : ∃ rest, window s = s.memRead p :: rest := by
  have hp : addr? s.pc = some p := addr?_eq_some.2 h
  exact ⟨_, by simp only [window, State.fetchBytes, hp]; rfl⟩

theorem fetchInstr_ok {opc : OpcodeMap} {s : State} {i : Instr} {rest : List Byte}
    (h : decodeWith opc (window s) = .ok (i, rest)) : fetchInstr opc s = .ok i := by
  simp only [fetchInstr, h]

theorem fetchInstr_error {opc : OpcodeMap} {s : State} {e : DecodeError}
    (h : decodeWith opc (window s) = .error e) : fetchInstr opc s = .error (fetchError s e) := by
  simp only [fetchInstr, h]

/-- A running core executes what it fetched. -/
theorem cycle_of_ok {opc : OpcodeMap} {s : State} {i : Instr} (hn : s.hr = .none) (h : fetchInstr opc s = .ok i) :
    cycle opc s = exec i s := by
  unfold cycle
  split
  · rw [h]
  · next hne => exact absurd hn (by simpa using hne)

/-- A running core that fetched no instruction takes the fatal error of the fetch. -/
theorem cycle_of_error {opc : OpcodeMap} {s : State} {e : FatalError} (hn : s.hr = .none)
    (h : fetchInstr opc s = .error e) : cycle opc s = .next (s.raiseFatal e) := by
  unfold cycle
  split
  · rw [h]
  · next hne => exact absurd hn (by simpa using hne)

/-! ## Placing bytes -/

/-- Storing bytes changes memory and nothing else. -/
theorem storeBytes_frame (bs : List Byte) (a : Int) (s : State) :
    (s.storeBytes bs a).x = s.x ∧ (s.storeBytes bs a).pc = s.pc ∧ (s.storeBytes bs a).fl = s.fl ∧
      (s.storeBytes bs a).hr = s.hr ∧ (s.storeBytes bs a).out = s.out ∧ (s.storeBytes bs a).diag = s.diag := by
  induction bs generalizing a s with
  | nil => exact ⟨rfl, rfl, rfl, rfl, rfl, rfl⟩
  | cons b bs ih =>
    simp only [State.storeBytes]
    split
    · exact ⟨rfl, rfl, rfl, rfl, rfl, rfl⟩
    · exact ih _ _

/-! ## Accesses -/

/-- A running core's accesses are those of its fetch, then the data access. -/
theorem stepAccesses_running {opc : OpcodeMap} {s : State} (hn : s.hr = .none) :
    stepAccesses opc s = fetchAccesses opc s ++ dataAccesses opc s := by
  unfold stepAccesses
  split
  · rfl
  · next hne => exact absurd hn (by simpa using hne)

/-- A halted core makes no access. -/
theorem stepAccesses_halted {opc : OpcodeMap} {s : State} (hn : s.hr ≠ .none) : stepAccesses opc s = [] := by
  unfold stepAccesses
  split
  · next h => exact absurd h hn
  · rfl

/-- The OFETCHes of `n` operands from address `a` on, cut off at the top of memory (R69). -/
theorem operandAccesses_eq (n a : Nat) :
    operandAccesses n a = (List.range (min n (256 - a))).map fun k => ⟨.ofetch, BitVec.ofNat 8 (a + k)⟩ := by
  induction n generalizing a with
  | zero => simp [operandAccesses]
  | succ n ih =>
    by_cases ha : a < 256
    · have hp : addr? (a : Int) = some (BitVec.ofNat 8 a) := by
        rw [addr?_eq_some, BitVec.toNat_ofNat]
        omega
      have hm : min (n + 1) (256 - a) = min n (256 - (a + 1)) + 1 := by omega
      have hi := ih (a + 1)
      rw [Nat.cast_succ] at hi
      simp only [operandAccesses, hp, hi, hm, List.range_succ_eq_map, List.map_cons, List.map_map, Nat.add_zero]
      congr 2
      funext k
      simp only [Function.comp_apply, Nat.succ_eq_add_one, Nat.add_comm k, Nat.add_assoc]
    · have hp : addr? (a : Int) = none := addr?_eq_none.2 (.inr (by omega))
      have hm : min (n + 1) (256 - a) = 0 := by omega
      simp only [operandAccesses, hp, hm, List.range_zero, List.map_nil]

theorem operandAccesses_cls (n : Nat) (a : Int) : ∀ ac ∈ operandAccesses n a, ac.cls = .ofetch := by
  induction n generalizing a with
  | zero => simp [operandAccesses]
  | succ n ih =>
    intro ac h
    unfold operandAccesses at h
    split at h
    · cases h
    · rcases List.mem_cons.1 h with rfl | h
      · rfl
      · exact ih _ ac h

end Sys2Proof.Machine
end

