-- ==== Sys2Proof/Laws/PerInstr.lean ====
section
/-! SUPPORT. One statement per instruction as syntax: its encoding under any valid opcode map is as long as the top
two bits of its opcode byte announce (spec 30_encoding.md R50, R52, R54). -/

namespace Sys2Proof.Laws.EncodingLength

/-- The encoded instruction is `1 + ir[7:6]` bytes long, 1 to 3. -/
def Statement (i : Instr) : Prop :=
  ∀ opc : OpcodeMap, opc.Valid →
    (encodeWith opc i).length = 1 + operandCountOf (opc.byte i.mnemonic) ∧ (encodeWith opc i).length ≤ 3

theorem holds (i : Instr) : Statement i := by
  intro opc hv
  have h := i.mnemonic.operandCount_le
  rw [hv.1 _ i.mnemonic.mem_all]
  simp only [encodeWith, List.length_cons, Instr.length_operands]
  omega

theorem ldi (reg value : Byte) : Statement (.ldi reg value) := holds _
theorem prn (reg : Byte) : Statement (.prn reg) := holds _
theorem hlt : Statement .hlt := holds _
theorem mul (regA regB : Byte) : Statement (.mul regA regB) := holds _
theorem add (regA regB : Byte) : Statement (.add regA regB) := holds _
theorem push (reg : Byte) : Statement (.push reg) := holds _
theorem pop (reg : Byte) : Statement (.pop reg) := holds _
theorem call (reg : Byte) : Statement (.call reg) := holds _
theorem ret : Statement .ret := holds _
theorem cmp (regA regB : Byte) : Statement (.cmp regA regB) := holds _
theorem jmp (offset reg : Byte) : Statement (.jmp offset reg) := holds _
theorem jeq (offset reg : Byte) : Statement (.jeq offset reg) := holds _
theorem jne (offset reg : Byte) : Statement (.jne offset reg) := holds _

end Sys2Proof.Laws.EncodingLength
end

