-- ==== Sys2Proof/Laws/Session.lean ====
section
/-! SUPPORT. What the host's transactions and a step do to a session, said once: `session_cases` (spec
70_reset_and_hazards.md R130 to R134). -/

namespace Sys2Proof.Machine

/-- The run goes on exactly while `hr` is `NONE` (R76). -/
theorem phaseAfterStep_eq (s : State) : phaseAfterStep s = if s.hr = .none then .running else .ended := by
  unfold phaseAfterStep
  split
  · next h => rw [if_pos h]
  · next h => rw [if_neg h]

/-- Everything an accepted event can be. -/
theorem session_cases {opc : OpcodeMap} {e : SessionEvent} {c d : Session} (h : c.apply opc e = .next d) :
    (e = .reset ∧ c.phase ≠ .running ∧ d = ⟨State.reset, .ready⟩) ∨
      (∃ image, e = .load image ∧ c.phase = .ready ∧ image.length ≤ 256 ∧ d = ⟨c.core.storeBytes image 0, .loaded⟩) ∨
      (e = .run ∧ (c.phase = .ready ∨ c.phase = .loaded) ∧ d = ⟨c.core, .running⟩) ∨
      (e = .run ∧ c.phase = .ended ∧ d = c) ∨
      (e = .step ∧ c.phase = .running ∧ ∃ t, cycle opc c.core = .next t ∧ d = ⟨t, phaseAfterStep t⟩) := by
  obtain ⟨s, p⟩ := c
  cases e with
  | reset => cases p <;> cases h <;> exact .inl ⟨rfl, (nomatch ·), rfl⟩
  | load image =>
    cases p <;> simp only [Session.apply, Session.load] at h <;> try cases h
    split at h
    · next hl => cases h; exact .inr (.inl ⟨image, rfl, rfl, hl, rfl⟩)
    · cases h
  | run =>
    cases p <;> cases h
    · exact .inr (.inr (.inl ⟨rfl, .inl rfl, rfl⟩))
    · exact .inr (.inr (.inl ⟨rfl, .inr rfl, rfl⟩))
    · exact .inr (.inr (.inr (.inl ⟨rfl, rfl, rfl⟩)))
  | step =>
    cases p <;> simp only [Session.apply, Session.step] at h <;> try cases h
    cases hc : cycle opc s with
    | next t =>
      rw [hc] at h
      cases h
      exact .inr (.inr (.inr (.inr ⟨rfl, rfl, t, rfl, rfl⟩)))
    | fault f => rw [hc] at h; cases h
    | refused r => rw [hc] at h; cases h

/-- A load after anything but a reset is refused (R47, R132). -/
theorem load_refused {c : Session} (h : c.phase ≠ .ready) (image : List Byte) :
    c.load image = .refused .loadNotAfterReset := by
  obtain ⟨s, p⟩ := c
  cases p <;> first | rfl | exact absurd rfl h

/-- Induction over a sequence of events: what holds at the start and is kept by each accepted event of the sequence
holds at the end. -/
theorem SessionTrace.keeps {opc : OpcodeMap} {P : Session → Prop} {es : List SessionEvent} {c d : Session}
    (h : SessionTrace opc es c d) (hP : P c)
    (step : ∀ e ∈ es, ∀ f g : Session, P f → f.apply opc e = .next g → P g) : P d := by
  induction h with
  | nil c => exact hP
  | cons ha _ ih =>
    exact ih (step _ List.mem_cons_self _ _ hP ha) fun e he => step e (List.mem_cons_of_mem _ he)

end Sys2Proof.Machine
end

