-- ==== Sys2Proof/Tests/Slice0.lean ====
section
/-! SUPPORT. Tests of single steps against the spec's vectors (95_test_vectors.md), words written out bit by bit, the
ill-formed terms, and for every obligation with hypotheses a concrete case that meets them. -/

namespace Sys2Proof.Tests

open Sys2Proof.Machine

/-! ## Small states -/

/-- A running core as reset leaves it, with `bytes` in memory from `pc` on and `pc` there. -/
def core (bytes : List Byte) (pc : Int) : State :=
  (State.reset.storeBytes bytes pc).jumpTo pc

/-- The next state of an outcome. -/
def nextOf : Outcome → Option State
  | .next t => some t
  | _ => none

/-- The next session of a transaction. -/
def nextSession : SessionOutcome → Option Session
  | .next d => some d
  | _ => none

/-- A view of the state one step later. -/
def afterStep {α : Type} (s : State) (view : State → α) : Option α :=
  (nextOf (step s)).map view

/-! ## Ill-formed terms: every register operand of every instruction -/

theorem test_wellFormed_accepts : ([.ldi 7 255, .prn 0, .hlt, .mul 7 0, .add 0 7, .push 7, .pop 7, .call 0, .ret,
    .cmp 7 7, .jmp 255 7, .jeq 0 0, .jne 8 7] : List Instr).all Instr.wellFormed = true := by decide

theorem test_wellFormed_refuses_ldi : Instr.wellFormed (.ldi 8 0) = false := by decide
theorem test_wellFormed_refuses_prn : Instr.wellFormed (.prn 8) = false := by decide
theorem test_wellFormed_refuses_mul :
    Instr.wellFormed (.mul 8 0) = false ∧ Instr.wellFormed (.mul 0 255) = false := by decide
theorem test_wellFormed_refuses_add :
    Instr.wellFormed (.add 8 0) = false ∧ Instr.wellFormed (.add 0 255) = false := by decide
theorem test_wellFormed_refuses_push : Instr.wellFormed (.push 8) = false := by decide
theorem test_wellFormed_refuses_pop : Instr.wellFormed (.pop 0x47) = false := by decide
theorem test_wellFormed_refuses_call : Instr.wellFormed (.call 8) = false := by decide
theorem test_wellFormed_refuses_cmp :
    Instr.wellFormed (.cmp 8 0) = false ∧ Instr.wellFormed (.cmp 0 8) = false := by decide
theorem test_wellFormed_refuses_jumps : Instr.wellFormed (.jmp 0 8) = false ∧ Instr.wellFormed (.jeq 0 8) = false ∧
    Instr.wellFormed (.jne 0 8) = false := by decide

/-! ## Decoding: one word per row, bit by bit from the encoding column of opcode_table.json -/

theorem test_decode_ldi : decode [0b10000010#8, 0b00000111#8, 0b11110100#8] = .ok (.ldi 7 0xF4, []) := rfl
theorem test_decode_prn : decode [0b01000111#8, 0b00000011#8, 0x01] = .ok (.prn 3, [0x01]) := rfl
theorem test_decode_hlt : decode [0b00000001#8, 0x82] = .ok (.hlt, [0x82]) := rfl
theorem test_decode_mul : decode [0b10100010#8, 0b00000010#8, 0b00000101#8] = .ok (.mul 2 5, []) := rfl
theorem test_decode_add : decode [0b10100000#8, 0b00000111#8, 0b00000000#8] = .ok (.add 7 0, []) := rfl
theorem test_decode_push : decode [0b01000101#8, 0b00000110#8] = .ok (.push 6, []) := rfl
theorem test_decode_pop : decode [0b01000110#8, 0b00001001#8] = .ok (.pop 9, []) := rfl
theorem test_decode_call : decode [0b01010000#8, 0b00000001#8] = .ok (.call 1, []) := rfl
theorem test_decode_ret : decode [0b00010001#8] = .ok (.ret, []) := rfl
theorem test_decode_cmp : decode [0b10100111#8, 0b00000100#8, 0b00000011#8] = .ok (.cmp 4 3, []) := rfl
theorem test_decode_jmp : decode [0b10010100#8, 0b11111111#8, 0b00000001#8] = .ok (.jmp 0xFF 1, []) := rfl
theorem test_decode_jeq : decode [0b10010101#8, 0b00000010#8, 0b00000011#8] = .ok (.jeq 2 3, []) := rfl
theorem test_decode_jne : decode [0b10010110#8, 0b00000010#8, 0b00000011#8] = .ok (.jne 2 3, []) := rfl

/-- Rejected by name: an unlisted byte, a byte announcing three operands, missing operands, nothing at all. -/
theorem test_decode_rejects :
    decode [0x00] = .error (.unknownOpcode 0x00) ∧ decode [0xC0, 0, 0, 0] = .error (.unknownOpcode 0xC0) ∧
    decode [0x83] = .error (.unknownOpcode 0x83) ∧ decode [0x82] = .error (.missingOperand 1) ∧
    decode [0x82, 0x00] = .error (.missingOperand 2) ∧ decode [0x47] = .error (.missingOperand 1) ∧
    decode [] = .error .noOpcode := ⟨rfl, rfl, rfl, rfl, rfl, rfl, rfl⟩

/-- The bytes of P4's loop body, `ADD R0 R2` and `JNE 2 R3`. -/
theorem test_encode : encode (.add 0 2) = [0xA0, 0x00, 0x02] ∧ encode (.jne 2 3) = [0x96, 0x02, 0x03] := by decide

/-- Bit 0 of a table word is the least significant bit of the first byte; bits above the row's are zero. -/
theorem test_decodeTableWord : decodeTableWord 24 0x080082 = some (.ldi 0 8) ∧
    decodeTableWord 16 0x0347 = some (.prn 3) ∧ decodeTableWord 8 0x01 = some .hlt ∧
    decodeTableWord 8 0xFF82 = some (.ldi 0 0) ∧ decodeTableWord 8 0x83 = none := by decide

/-- A placed word is what the next step runs: `LDI R0 8` at the reset pc. -/
theorem test_withFetchWord : afterStep (State.reset.withFetchWord 24 0x080082) (fun t => (t.reg 0, t.pc)) =
    some (0x08, 3) := by decide

/-- The default map meets R54, and a map with two equal bytes does not. -/
theorem test_valid : opcDefault.Valid ∧ ¬ (OpcodeMap.Valid { opcDefault with ret := 0x01 }) := by decide

/-! ## Single steps, from part 2 of 95_test_vectors.md -/

/-- V-LDI-2. -/
theorem test_ldi_sp : afterStep (core [0x82, 0x07, 0xF4] 0) (fun t => (t.sp, t.reg 0, t.pc)) =
    some (0xF4, 0x00, 3) := by decide

/-- V-LDI-5: the last byte of memory is used, and the step after it faults at the fetch. -/
theorem test_ldi_at_top : afterStep (core [0x82, 0x00, 0x01] 253) (fun t => (t.reg 0, t.pc, t.hr)) =
      some (1, 256, .none) ∧
    (afterStep (core [0x82, 0x00, 0x01] 253) fun t => (afterStep t State.hr)) =
      some (some (.outOfBounds 256 .fetch 256)) := by decide

/-- V-PRN-1. -/
theorem test_prn : afterStep ((core [0x47, 0x03] 0).setReg 3 0xFF) (fun t => (t.out, t.pc)) = some ([255], 2) := by
  decide

/-- V-PRN-4. -/
theorem test_prn_at_255 : afterStep (core [0x47] 255) (fun t => (t.out, t.pc, t.hr)) =
    some ([], 255, .outOfBounds 255 .operand 256) := by decide

/-- V-HLT-2 and V-HLT-3: no fault at 255, and no step after it. -/
theorem test_hlt : afterStep (core [0x01] 255) (fun t => (t.pc, t.hr, t.diag)) = some (256, .hlt, []) ∧
    (afterStep (core [0x01] 255) fun t => (nextOf (step t)).isSome) = some false := by decide

/-- V-ALU-8. -/
theorem test_mul_wraps :
    afterStep (((core [0xA2, 0x00, 0x01] 0).setReg 0 255).setReg 1 255) (fun t => (t.reg 0, t.reg 1, t.pc, t.fl)) =
    some (0x01, 0xFF, 3, 0x00) := by decide

/-- V-ALU-16: one register is both operands. -/
theorem test_mul_same : afterStep ((core [0xA2, 0x02, 0x02] 0).setReg 2 200) (fun t => t.reg 2) = some 0x40 := by
  decide

/-- V-ALU-3. -/
theorem test_add_wraps :
    afterStep (((core [0xA0, 0x00, 0x01] 0).setReg 0 200).setReg 1 100) (fun t => (t.reg 0, t.reg 1, t.pc, t.fl)) =
    some (0x2C, 100, 3, 0x00) := by decide

/-- V-ALU-20: `op0` is checked before `op1`. -/
theorem test_add_registers : afterStep (core [0xA0, 0xC8, 0x09] 0) (fun t => (t.hr, t.pc)) =
    some (.outOfBounds 0 .register 200, 0) := by decide

/-- V-STK-2: PUSH R7 stores SP as it is after the decrement. -/
theorem test_push_sp : afterStep (core [0x45, 0x07] 0) (fun t => (t.sp, t.memRead 0xF3, t.pc)) =
    some (0xF3, 0xF3, 2) := by decide

/-- V-STK-3: SP goes to 0 and the byte lands at address 0. -/
theorem test_push_to_zero :
    afterStep (((core [0x45, 0x00] 4).setReg 7 1).setReg 0 0xAA) (fun t => (t.sp, t.memRead 0x00, t.pc)) =
    some (0x00, 0xAA, 6) := by decide

/-- V-STK-20: POP R7 increments the byte it loaded. -/
theorem test_pop_sp :
    afterStep (((core [0x46, 0x07] 0).memWrite 0xF0 0x20).setReg 7 0xF0) (fun t => (t.sp, t.pc)) = some (0x21, 2) := by
  decide

/-- V-STK-16 and V-STK-21: the underflow, and the register check that comes before it. -/
theorem test_pop_underflow :
    afterStep ((core [0x46, 0x00] 0).setReg 0 9) (fun t => (t.diag, t.reg 0, t.sp, t.pc, t.hr)) =
      some ([.stackUnderflow 0], 9, 0, 2, .none) ∧
    afterStep (core [0x46, 0x09] 0) State.diag = some [.outOfBoundsAddress 0 .register 9] := by decide

/-- V-CAL-2: CALL R7 jumps to SP as it is after the decrement. -/
theorem test_call_sp : afterStep (core [0x50, 0x07] 0) (fun t => (t.sp, t.memRead 0xF3, t.pc)) =
    some (0xF3, 0x02, 243) := by decide

/-- V-CAL-4: nothing is written before the return address is checked. -/
theorem test_call_at_254 :
    afterStep ((core [0x50, 0x01] 254).setReg 1 9) (fun t => (t.hr, t.sp, t.memRead 0xF3, t.pc)) =
    some (.outOfBounds 254 .returnAddress 256, 0, 0, 254) := by decide

/-- V-RET-2: no emptiness test. -/
theorem test_ret_at_reset : afterStep (core [0x11] 0) (fun t => (t.pc, t.sp, t.diag)) = some (17, 0x01, []) := by
  decide

/-- V-RET-4: SP wraps. -/
theorem test_ret_wraps : afterStep (((core [0x11] 0).memWrite 0xFF 0x10).setReg 7 0xFF) (fun t => (t.pc, t.sp)) =
    some (16, 0x00) := by decide

/-- V-CMP-4: the comparison is unsigned. -/
theorem test_cmp_unsigned :
    afterStep (((core [0xA7, 0x00, 0x01] 0).setReg 0 255).setReg 1 1) (fun t => (t.fl, t.pc)) = some (0x02, 3) := by
  decide

/-- V-CMP-6: the bit of an earlier CMP is cleared. -/
theorem test_cmp_clears : afterStep ((core [0xA7, 0x00, 0x01] 0).setFl 0x02) State.fl = some 0x01 := by decide

/-- V-JMP-5 and V-JMP-4: the least and the greatest target, and the fault of the step after. -/
theorem test_jmp_range : afterStep (core [0x94, 0xFF, 0x00] 0) (fun t => (t.pc, t.hr)) = some (-253, .none) ∧
    (afterStep (core [0x94, 0xFF, 0x00] 0) fun t => afterStep t State.hr) =
      some (some (.outOfBounds (-253) .fetch (-253))) ∧
    afterStep ((core [0x94, 0x00, 0x00] 0).setReg 0 255) State.pc = some 257 := by decide

/-- V-JMP-8 and V-JMP-9. -/
theorem test_jeq :
    afterStep (((core [0x95, 0x02, 0x03] 18).setReg 3 12).setFl 0x01) State.pc = some 12 ∧
    afterStep (((core [0x95, 0x02, 0x03] 18).setReg 3 12).setFl 0x04) State.pc = some 21 := by decide

/-- V-JMP-11: the register is checked although the jump would not be taken. -/
theorem test_jeq_register : afterStep ((core [0x95, 0x02, 0x09] 0).setFl 0x04) State.hr =
    some (.outOfBounds 0 .register 9) := by decide

/-- V-JMP-13 and V-JMP-14. -/
theorem test_jne :
    afterStep (((core [0x96, 0x02, 0x03] 18).setReg 3 12).setFl 0x01) State.pc = some 21 ∧
    afterStep ((core [0x96, 0x02, 0x03] 18).setReg 3 12) State.pc = some 12 := by decide

/-- V-UNK-3: not an operand fault, although the byte announces two operands. -/
theorem test_unknown : afterStep (core [0x83] 254) (fun t => (t.hr, t.diag, t.pc)) =
    some (.unknownInstruction 254 0x83, [.unknownInstruction 254 0x83], 254) := by decide

/-- V-FET-2. -/
theorem test_fetch_below : afterStep (core [] (-1)) State.hr = some (.outOfBounds (-1) .fetch (-1)) := by decide

/-- The accesses of a PUSH in order (R41), with its store below the stack pointer (V-STK-1), and those of an image of
two bytes (R40). -/
theorem test_accesses : stepAccesses opcDefault (core [0x45, 0x00] 3) =
      [⟨.ifetch, 3⟩, ⟨.ofetch, 4⟩, ⟨.dwrite, 0xF3⟩] ∧
    loadAccesses [0x01, 0x02] ⟨State.reset, .ready⟩ = [⟨.load, 0⟩, ⟨.load, 1⟩] ∧
    loadAccesses [0x01, 0x02] ⟨State.reset, .running⟩ = [] := by decide

/-- P6's image loaded and run (R132): a second load is refused, in the run and after it, and the host reads the state
only at the end; and after a load of the empty image a second one is refused too (R47, U12). -/
theorem test_session :
    (∀ c ∈ (([Phase.loaded, .running, .ended].map fun p => (⟨State.reset, p⟩ : Session))),
      nextSession (c.load []) = none) ∧
    ((nextSession (Session.load [] ⟨State.reset, .ready⟩)).bind fun c => nextSession (c.load [0x01])) = none ∧
    ((nextSession (Session.load [0x82, 0x00, 0x01, 0x47, 0x00] ⟨State.reset, .ready⟩)).bind fun c =>
      (nextSession c.run).map fun d => (d.hostRead, (d.runFor opcDefault 9).phase, (d.runFor opcDefault 9).haltReason)) =
      some (none, .ended, some (.unknownInstruction 5 0x00)) := by decide

/-- The four values of `hr` are distinct (R22), and a run that ended by HLT with nothing reported went well (R120). -/
theorem test_halt_codes : ([.none, .hlt, .unknownInstruction 0 0, .outOfBounds 0 .fetch 0] : List HaltReason).map
      HaltReason.code = [0, 1, 2, 3] ∧
    WentWell (runFor opcDefault 3 (core [0x01] 0)) ∧ ¬ WentWell (runFor opcDefault 3 (core [0x46, 0x00, 0x01] 0)) :=
  ⟨by decide, ⟨by decide, by decide⟩, fun h => absurd h.2 (by decide)⟩

/-! ## Witnesses: the hypotheses of each obligation can be met, each clause at a boundary of its range -/

/-- For LoadPlacesTheImageFromAddressZero, LoadAccessesAreThoseOfAnAcceptedLoad. -/
theorem witness_load : (List.replicate 256 (0x01 : Byte)).length ≤ 256 ∧
    256 < (List.replicate 257 (0x01 : Byte)).length ∧ Phase.loaded ≠ .ready ∧
    (255 < (List.replicate 256 (0x01 : Byte)).length) ∧ ((List.replicate 255 (0x01 : Byte)).length ≤ 255) := by
  simp only [List.length_replicate]
  decide

/-- For HaltedCoreHasNoStep. -/
theorem witness_terminal : Terminal (State.reset.setHr .hlt) ∧
    Terminal (State.reset.setHr (.outOfBounds 255 .operand 256)) := by
  constructor <;> (show _ ≠ _; decide)

/-- For EveryInstructionAndEveryRunningStepAnswers. -/
theorem witness_running : State.reset.hr = .none := rfl

/-- For DecodingAnEncodedInstructionGivesItBack, TwoHundredFortyThreeBytesAreUnrecognised and every other premise on a
map. -/
theorem witness_valid : opcDefault.Valid := by decide

/-- One step of the default machine from a concrete state is a run of one step. -/
theorem steps_one {s t : State} (h : cycle opcDefault s = .next t) : Steps opcDefault s t :=
  .head h (.refl t)

/-- For RunsEndInOneTerminalState. -/
theorem witness_runsEnd : Steps opcDefault (core [0x01] 0) (((core [0x01] 0).setHr .hlt).advance 0) ∧
    Terminal (((core [0x01] 0).setHr .hlt).advance 0) :=
  ⟨steps_one rfl, by show _ ≠ _; decide⟩

/-- For DecodedBytesAreTheEncoding. -/
theorem witness_decodedBytes : decodeWith opcDefault [0x82, 0xFF, 0x00, 0x07] = .ok (.ldi 0xFF 0x00, [0x07]) := rfl

/-- For TopBitsOfARecognisedOpcodeAreItsOperandCount. -/
theorem witness_recognised : recognise opcDefault 0x01 = some .hlt ∧ recognise opcDefault 0x47 = some .prn ∧
    recognise opcDefault 0x82 = some .ldi := by decide

/-- For StepRunsTheDecodedInstruction. -/
theorem witness_stepRuns : (core [0x01] 255).hr = .none ∧ decode (window (core [0x01] 255)) = .ok (.hlt, []) ∧
    decodeWith opcDefault (window (core [0x82, 0x00, 0x01] 0)) = .ok (.ldi 0 1, []) := ⟨rfl, rfl, rfl⟩

/-- For InstructionStoredAtPcIsTheOneThatRuns. -/
theorem witness_bytesAt : BytesAt (encodeWith opcDefault (.ldi 0 1)) 253 (core [0x82, 0x00, 0x01] 253) ∧
    BytesAt (encodeWith opcDefault .hlt) 0 (core [0x01] 0) :=
  ⟨⟨⟨253, by decide, by decide⟩, ⟨254, by decide, by decide⟩, ⟨255, by decide, by decide⟩, trivial⟩,
    ⟨0, by decide, by decide⟩, trivial⟩

/-- For PcOutsideMemoryFaultsAtTheFetch. -/
theorem witness_pcOutside : ((core [] (-1)).hr = .none ∧ (core [] (-1)).pc < 0) ∧
    ((core [] 256).hr = .none ∧ 255 < (core [] 256).pc) := by decide

theorem mnemonic_cases {p : Mnemonic → Prop} (h : ∀ m ∈ Mnemonic.all, p m) (m : Mnemonic) : p m :=
  h m (by cases m <;> decide)

/-- For UnknownOpcodeHaltsAndReportsPcAndOpcode. -/
theorem witness_unknownOpcode :
    ((core [0x00] 0).pc = (0 : Addr).toNat ∧ ∀ m, opcDefault.byte m ≠ (core [0x00] 0).memRead 0) ∧
    ((core [0x83] 255).pc = (255 : Addr).toNat ∧ ∀ m, opcDefault.byte m ≠ (core [0x83] 255).memRead 255) :=
  ⟨⟨rfl, mnemonic_cases (by decide)⟩, rfl, mnemonic_cases (by decide)⟩

/-- For OpcodeWithTopBitsElevenIsUnknown. -/
theorem witness_topBitsEleven :
    ((core [0xC0] 0).pc = (0 : Addr).toNat ∧ operandCountOf ((core [0xC0] 0).memRead 0) = 3) ∧
    ((core [0xFF] 255).pc = (255 : Addr).toNat ∧ operandCountOf ((core [0xFF] 255).memRead 255) = 3) := by decide

/-- For OperandBeyondMemoryFaults. -/
theorem witness_operandBeyond :
    (recognise opcDefault ((core [0x82] 254).memRead 254) = some .ldi ∧
      255 < (core [0x82] 254).pc + Mnemonic.ldi.operandCount) ∧
    (recognise opcDefault ((core [0x82] 255).memRead 255) = some .ldi ∧
      255 < (core [0x82] 255).pc + Mnemonic.ldi.operandCount) ∧
    (recognise opcDefault ((core [0x47] 255).memRead 255) = some .prn ∧
      255 < (core [0x47] 255).pc + Mnemonic.prn.operandCount) := by decide

/-- For RegisterOperandAboveSevenFaults. -/
theorem witness_registerOperand :
    ((Instr.add 8 9).registerOperands.find? fun b => decide (7 < b.toNat)) = some 8 ∧
    ((Instr.cmp 7 8).registerOperands.find? fun b => decide (7 < b.toNat)) = some 8 ∧
    ((Instr.jeq 9 255).registerOperands.find? fun b => decide (7 < b.toNat)) = some 255 := by decide

/-- For FatalErrorsChangeOnlyTheHaltReasonAndDiag. -/
theorem witness_fatal : (afterStep (core [0x00] 0) fun t => t.hr.isFatal) = some true ∧
    (afterStep (core [] 256) fun t => t.hr.isFatal) = some true := by decide

/-- For StepFaultsExactlyAsThePriorityListSays. -/
theorem witness_firstFatal :
    firstFatal opcDefault (core [] (-1)) = some (.outOfBoundsAddress .fetch (-1)) ∧
    firstFatal opcDefault (core [0x83] 255) = some (.unknownInstruction 0x83) ∧
    firstFatal opcDefault (core [0x82] 255) = some (.outOfBoundsAddress .operand 256) ∧
    firstFatal opcDefault (core [0x82, 0x08] 254) = some (.outOfBoundsAddress .operand 256) ∧
    firstFatal opcDefault (core [0x82, 0x08] 253) = some (.outOfBoundsAddress .register 8) ∧
    firstFatal opcDefault (core [0x50, 0x08] 254) = some (.outOfBoundsAddress .register 8) ∧
    firstFatal opcDefault (core [0x50, 0x07] 254) = some (.outOfBoundsAddress .returnAddress 256) ∧
    firstFatal opcDefault (core [0x50, 0x07] 253) = none ∧ firstFatal opcDefault (core [0x01] 255) = none := by
  decide

/-- For PcAdvancesUnlessTheInstructionSetsIt (its second clause: witness_fatal). -/
theorem witness_pcAdvances : Instr.wellFormed (.call 7) = true ∧ (core [] 253).pc ≤ 253 ∧
    Instr.wellFormed (.jmp 255 7) = true ∧ (Instr.jmp 255 7).mnemonic ≠ .call := by decide

/-- The register clauses of LDI, MUL and ADD. For LdiLoadsTheValue, MulKeepsTheLowByteOfTheProduct, AddWrapsModulo256.
-/
theorem witness_registerByte : 7 < (0x08 : Byte).toNat ∧ 7 < (0xFF : Byte).toNat := by decide

/-- The operand clauses of LDI, MUL and ADD, at both addresses. For LdiLoadsTheValue, MulKeepsTheLowByteOfTheProduct,
AddWrapsModulo256. -/
theorem witness_faultsFromOn : (254 ≤ (core [0x82] 254).pc ∧ (core [0x82] 254).memRead 254 = opcDefault.byte .ldi) ∧
    (254 ≤ (core [0xA2] 255).pc ∧ (core [0xA2] 255).memRead 255 = opcDefault.byte .mul) ∧
    (254 ≤ (core [0xA0] 255).pc ∧ (core [0xA0] 255).memRead 255 = opcDefault.byte .add) := by decide

/-- The step clauses of LDI, MUL and ADD, at the highest address that holds the whole instruction. For
LdiLoadsTheValue (with witness_bytesAt), MulKeepsTheLowByteOfTheProduct, AddWrapsModulo256. -/
theorem witness_stepAnswers : (core [0xA2, 0x07, 0x07] 253).hr = .none ∧
    BytesAt (encodeWith opcDefault (.mul 7 7)) 253 (core [0xA2, 0x07, 0x07] 253) ∧
    BytesAt (encodeWith opcDefault (.add 0 0)) 0 (core [0xA0, 0x00, 0x00] 0) :=
  ⟨rfl, ⟨⟨253, by decide, by decide⟩, ⟨254, by decide, by decide⟩, ⟨255, by decide, by decide⟩, trivial⟩,
    ⟨0, by decide, by decide⟩, ⟨1, by decide, by decide⟩, ⟨2, by decide, by decide⟩, trivial⟩

/-- For AddAndMulAreCommutative. -/
theorem witness_commutative :
    ((State.reset.setReg 0 9).setReg 1 8).reg 0 = ((State.reset.setReg 0 8).setReg 1 9).reg 1 ∧
    ((State.reset.setReg 0 9).setReg 1 8).reg 1 = ((State.reset.setReg 0 8).setReg 1 9).reg 0 := by decide

/-- For PopLoadsThenIncrementsTheStackPointer. -/
theorem witness_popLoads : ((State.reset.setReg 7 0x01).sp ≠ 0x00 ∧ (State.reset.setReg 7 0x01).sp ≠ 0xF4) ∧
    ((State.reset.setReg 7 0xFF).sp ≠ 0x00 ∧ (State.reset.setReg 7 0xFF).sp ≠ 0xF4) ∧
    ((State.reset.setReg 7 0xF3).sp ≠ 0x00 ∧ (State.reset.setReg 7 0xF5).sp ≠ 0xF4) := by decide

/-- For PopOnAnEmptyStackReportsAndIsSkipped. -/
theorem witness_popEmpty : State.reset.sp = 0x00 ∧ (State.reset.setReg 7 0xF4).sp = 0xF4 ∧
    ((nextOf (exec (.push 0) State.reset)).isSome = true ∧ Instr.mnemonic (.push 0) ≠ .pop) ∧
    (nextOf (exec (.pop 0) (State.reset.setReg 7 0xF5))).isSome = true := by decide

/-- For CallPushesTheReturnAddressAndJumps, CallAtAddress254Faults. -/
theorem witness_call : (0 ≤ State.reset.pc ∧ State.reset.pc ≤ 253) ∧
    (0 ≤ (State.reset.jumpTo 253).pc ∧ (State.reset.jumpTo 253).pc ≤ 253) ∧ (State.reset.jumpTo 254).pc = 254 := by
  decide

/-- For CmpSetsExactlyTheFlagOfTheUnsignedOrder. -/
theorem witness_cmp : (State.reset.reg 0).toNat = (State.reset.reg 1).toNat ∧
    ((State.reset.setReg 1 1).reg 0).toNat < ((State.reset.setReg 1 1).reg 1).toNat ∧
    ((State.reset.setReg 0 255).reg 1).toNat < ((State.reset.setReg 0 255).reg 0).toNat := by decide

/-- For JeqJumpsOnlyWhenTheEqualBitIsSet, JneJumpsOnlyWhenTheEqualBitIsClear. -/
theorem witness_equalBit : (State.reset.setFl 0x01).fl.getLsbD 0 = true ∧
    (State.reset.setFl 0xFE).fl.getLsbD 0 = false := by decide

/-- For PushThenPopRestoresTheRegister. -/
theorem witness_pushThenPop :
    ((State.reset.setReg 7 0x02).sp ≠ 0x00 ∧ (State.reset.setReg 7 0x02).sp ≠ 0x01 ∧
      (State.reset.setReg 7 0x02).sp ≠ 0xF5) ∧
    (State.reset.sp = 0x00 ∧ (0 : RegIdx) ≠ spReg) ∧
    (State.reset.setReg 7 0x01).sp = 0x01 ∧ (State.reset.setReg 7 0xF5).sp = 0xF5 := by decide

/-- A state a CALL at 253 leaves, moved on to another `pc`, is one in which the RET matches; and SP can be 1. For
RetReturnsPastTheMatchingCall. -/
theorem witness_retReturns : (State.reset.setReg 7 0x01).sp = 0x01 ∧ 0 ≤ (State.reset.jumpTo 253).pc ∧
    (State.reset.jumpTo 253).pc ≤ 253 ∧
    ∃ t, exec (.call 1) (State.reset.jumpTo 253) = .next t ∧ (t.jumpTo 12).sp = t.sp ∧
      (t.jumpTo 12).memRead t.sp = t.memRead t.sp :=
  ⟨by decide, by decide, by decide, _, rfl, rfl, rfl⟩

/-- For PushesFillTheStackDownwardFromTheSentinel. -/
theorem witness_pushes : (State.reset.setReg 7 0xF4).sp = 0xF4 ∧ (∀ r ∈ ([] : List RegIdx), r ≠ spReg) ∧
    (∀ r ∈ List.replicate 244 (6 : RegIdx), r ≠ spReg) ∧ (List.replicate 244 (6 : RegIdx)).length = 244 ∧
    (List.replicate 243 (6 : RegIdx)).length ≤ 243 ∧ List.replicate 243 (6 : RegIdx) ≠ [] ∧
    ((0x00 : Addr).toNat < 0xF4 - 243 ∧ 0xF4 ≤ (0xF4 : Addr).toNat) := by
  refine ⟨by decide, fun r h => (List.not_mem_nil h).elim, fun r h => ?_, List.length_replicate,
    (List.length_replicate).le, List.cons_ne_nil _ _, by decide⟩
  rw [List.eq_of_mem_replicate h]
  decide

/-- For FlIsSetOnlyByCmpAndReadOnlyByJeqAndJne. -/
theorem witness_flags : Instr.mnemonic (.add 0 1) ≠ .cmp ∧ (nextOf (exec (.add 0 1) State.reset)).isSome = true ∧
    (Instr.mnemonic .ret ≠ .jeq ∧ Instr.mnemonic .ret ≠ .jne) ∧
    (0xFE : Byte).getLsbD 0 = State.reset.fl.getLsbD 0 ∧
    (Instr.mnemonic (.cmp 7 7) = .cmp ∧ Instr.wellFormed (.cmp 7 7) = true) := by decide

/-- For InstructionsChangeOnlyWhatTheirRulesName. -/
theorem witness_execAnswers : (nextOf (exec (.push 7) State.reset)).isSome = true ∧
    (nextOf (exec (.prn 8) State.reset)).isSome = true ∧ (nextOf (exec .hlt State.reset)).isSome = true := by decide

/-- A step that writes both to memory and to the register file, for the statements about a step's next state. For
StreamsOnlyGrowAndAreNeverRead, StepStoresOnlyAtItsWriteAccess. -/
theorem witness_cycle : ∃ t, cycle opcDefault (core [0x45, 0x00] 0) = .next t := ⟨_, rfl⟩

/-- For ReportedErrorsAndHaltsAreSticky. -/
theorem witness_steps : Steps opcDefault State.reset State.reset ∧
    ∃ t, Steps opcDefault (core [0x47, 0x03] 0) t ∧ t.out = [0x00] ∧
      Steps opcDefault (State.reset.setHr .hlt) (State.reset.setHr .hlt) ∧ Terminal (State.reset.setHr .hlt) :=
  ⟨.refl _, _, steps_one rfl, by decide, .refl _, by show _ ≠ _; decide⟩

/-- For MemoriesThatReadAlikeAreEqual. -/
theorem witness_memoriesAlike : Memory.wf [(0, 0x01), (255, 0xFF)] = true ∧ Memory.wf [(0, 0x00)] = false ∧
    Memory.wf [(1, 0x01), (0, 0x01)] = false ∧ Memory.wf [(256, 0x01)] = false := by decide

/-- Fetches of each number, none to three, and a data access. For AccessesOfAStepComeInOrder. -/
theorem witness_accesses : stepAccesses opcDefault (core [] 256) = [] ∧
    stepAccesses opcDefault (core [0x00] 255) = [⟨.ifetch, 255⟩] ∧
    stepAccesses opcDefault (core [0x82, 0x00] 254) = [⟨.ifetch, 254⟩, ⟨.ofetch, 255⟩] ∧
    stepAccesses opcDefault (core [0xA7, 0x00, 0x00] 0) = [⟨.ifetch, 0⟩, ⟨.ofetch, 1⟩, ⟨.ofetch, 2⟩] ∧
    stepAccesses opcDefault (core [0x11] 0) = [⟨.ifetch, 0⟩, ⟨.dread, 0⟩] := by decide

/-- An address a PUSH does not store to. For StepStoresOnlyAtItsWriteAccess. -/
theorem witness_stepStores : ∀ ac ∈ stepAccesses opcDefault (core [0x45, 0x00] 0), ac.cls = .dwrite →
    ac.addr ≠ 0xF2 := by decide

/-- Another memory that agrees on what a PUSH reads, though not on what it overwrites. For
StepReadsOnlyWhatItsAccessesName. -/
theorem witness_stepReads : ∀ ac ∈ stepAccesses opcDefault (core [0x45, 0x00] 0), ac.cls.isWrite = false →
    Memory.read [(0, 0x45), (0xF3, 0x99)] ac.addr.toNat = (core [0x45, 0x00] 0).memRead ac.addr := by decide

/-- The invariant at reset is an obligation of its own; here a halted state that meets it too. For
EveryStepKeepsTheInvariant. -/
theorem witness_invariant : CoreInv (core [0x01] 255) ∧ CoreInv (((core [0x01] 255).setHr .hlt).advance 0) ∧
    ∃ t, step (core [0x01] 255) = .next t :=
  ⟨⟨by decide, by decide, by decide, trivial, by decide⟩, ⟨by decide, by decide, by decide, trivial, by decide⟩,
    _, rfl⟩

/-- A loaded image and a run from it. For EveryStateARunReachesMeetsTheInvariant. -/
theorem witness_loadedRun : ∃ c t, Session.load [0x01] ⟨State.reset, .ready⟩ = .next c ∧
    Steps opcDefault c.core t ∧ t.hr = .hlt :=
  ⟨_, _, rfl, steps_one rfl, by decide⟩

/-- Each accepted transaction, for HostTransactionsAreAcceptedOnlyInTheirPhases and
EveryTransactionAndStepKeepsTheSessionInvariant: the sessions meet the invariant of their phase. -/
theorem witness_transactions : SessionInv ⟨State.reset.setHr .hlt, .neverReset⟩ ∧
    (∃ d, Session.apply opcDefault .reset ⟨State.reset.setHr .hlt, .neverReset⟩ = .next d) ∧
    SessionInv ⟨State.reset, .ready⟩ ∧ (∃ d, Session.apply opcDefault (.load []) ⟨State.reset, .ready⟩ = .next d) ∧
    SessionInv ⟨State.reset.memWrite 0 0x01, .loaded⟩ ∧
    (∃ d, Session.apply opcDefault .run ⟨State.reset.memWrite 0 0x01, .loaded⟩ = .next d) ∧
    SessionInv ⟨core [0x01] 255, .running⟩ ∧
    (∃ d, Session.apply opcDefault .step ⟨core [0x01] 255, .running⟩ = .next d) ∧
    SessionInv ⟨((core [0x01] 255).setHr .hlt).advance 0, .ended⟩ :=
  ⟨trivial, ⟨_, rfl⟩, rfl, ⟨_, rfl⟩, ⟨⟨by decide, by decide, by decide, trivial, by decide⟩, _, rfl⟩, ⟨_, rfl⟩,
    ⟨witness_invariant.1, rfl⟩, ⟨_, rfl⟩, witness_invariant.2.1, by show _ ≠ _; decide⟩

/-- For NoSecondLoadAndNoneAfterTheRunStarts and EverySessionFromPowerUpMeetsItsInvariant: reset, load, run and a step,
from any power-up state. -/
theorem witness_trace : (∃ c, SessionTrace opcDefault [.reset, .load [0x01], .run, .step] ⟨core [0x83] 7, .neverReset⟩ c) ∧
    (∃ d f, Session.apply opcDefault (.load [0x01]) ⟨State.reset, .ready⟩ = .next d ∧
      SessionTrace opcDefault [.run, .step] d f ∧ SessionEvent.reset ∉ [SessionEvent.run, .step]) ∧
    (∃ d f, Session.apply opcDefault .run ⟨core [0x01] 0, .loaded⟩ = .next d ∧ SessionTrace opcDefault [.step] d f) :=
  ⟨⟨_, .cons rfl (.cons rfl (.cons rfl (.cons rfl (.nil _))))⟩,
    ⟨_, _, rfl, .cons rfl (.cons rfl (.nil _)), by decide⟩, ⟨_, _, rfl, .cons rfl (.nil _)⟩⟩

/-- For TheRunOfASessionIsTheRunOfItsCore. -/
theorem witness_sessionRun : (∃ t, cycle opcDefault (core [0x01] 255) = .next t) ∧ Phase.loaded ≠ .running ∧
    (core [0x01] 255).hr = .none := ⟨⟨_, rfl⟩, by decide, rfl⟩

/-- For the exact clauses of AccessesOfAStepComeInOrder (instructions at `pc`: witness_bytesAt): no access, an unknown
opcode at both ends of memory, operands cut off after none and after one, and each instruction with a data access. -/
theorem witness_accessesExact : (State.reset.setHr .hlt).hr ≠ .none ∧ (core [] (-1)).pc < 0 ∧ 255 < (core [] 256).pc ∧
    ((core [0x82] 255).memRead 255 = opcDefault.byte .ldi ∧ 255 < (core [0x82] 255).pc + Mnemonic.ldi.operandCount) ∧
    ((core [0x82] 254).memRead 254 = opcDefault.byte .ldi ∧ 255 < (core [0x82] 254).pc + Mnemonic.ldi.operandCount) ∧
    stepAccesses opcDefault (core [0x50, 0x07] 253) = [⟨.ifetch, 253⟩, ⟨.ofetch, 254⟩, ⟨.dwrite, 0xF3⟩] ∧
    stepAccesses opcDefault (core [0x50, 0x07] 254) = [⟨.ifetch, 254⟩, ⟨.ofetch, 255⟩] ∧
    stepAccesses opcDefault (core [0x46, 0x00] 0) = [⟨.ifetch, 0⟩, ⟨.ofetch, 1⟩] ∧
    stepAccesses opcDefault ((core [0x46, 0x00] 0).setReg 7 0xFF) = [⟨.ifetch, 0⟩, ⟨.ofetch, 1⟩, ⟨.dread, 0xFF⟩] ∧
    stepAccesses opcDefault (core [0x45, 0x08] 0) = [⟨.ifetch, 0⟩, ⟨.ofetch, 1⟩] := by decide

end Sys2Proof.Tests
end

section
/-! The flags register (spec 10_state.md R17, R18): which instruction writes `FL`, and which reads it. `exec_setFl`
says both at once: another value put into `FL` beforehand passes through every instruction but CMP, which overwrites
it. -/

namespace Sys2Proof.Machine

variable {s t : State} {i : Instr} {f : Byte}

/-! ## The other value of `FL` passes through the stack pointer logic -/

theorem State.setFl_spInitIfZero (s : State) (f : Byte) : (s.setFl f).spInitIfZero = s.spInitIfZero.setFl f := by
  unfold State.spInitIfZero
  rw [State.setFl_sp]
  split <;> rfl

theorem State.setFl_spForPush (s : State) (f : Byte) : (s.setFl f).spForPush = s.spForPush.setFl f := by
  rw [State.spForPush, State.setFl_spInitIfZero]
  rfl

/-! ## Writing `FL` -/

/-- Of the effects only CMP's changes `FL`. -/
theorem Effect.fl (h : Effect s i t) (hi : i.mnemonic ≠ .cmp) : t.fl = s.fl := by
  cases h with
  | cmp ra rb => exact absurd rfl hi
  | push r => simp only [State.advance_fl, storeAtSp_fl, State.spForPush_fl]
  | call r hpc => simp only [State.jumpTo_fl, storeAtSp_fl, State.spForPush_fl]
  | _ => rfl

/-- An instruction other than CMP leaves `FL` alone, and so does every fatal error. -/
theorem exec_fl (h : exec i s = .next t) (hi : i.mnemonic ≠ .cmp) : t.fl = s.fl := by
  rcases exec_inv h with he | ⟨b, -, -, rfl⟩ | ⟨r, -, -, rfl⟩
  · exact he.fl hi
  · exact State.raiseFatal_fl s _
  · exact State.raiseFatal_fl s _

/-! ## Reading `FL` -/

/-- The value `f` is as good as the one in `FL` to the instruction `i`: it is no JEQ and no JNE, or bit 0 agrees. -/
def FlAlikeFor (i : Instr) (f : Byte) (s : State) : Prop :=
  (i.mnemonic ≠ .jeq ∧ i.mnemonic ≠ .jne) ∨ f.getLsbD 0 = s.fl.getLsbD 0

/-- A conditional jump tests the same bit with such a value in `FL`. -/
theorem FlAlikeFor.equalBit_setFl (hf : FlAlikeFor i f s) (hi : i.mnemonic = .jeq ∨ i.mnemonic = .jne) :
    (s.setFl f).equalBit = s.equalBit := by
  rcases hf with ⟨hjeq, hjne⟩ | hbit
  · exact absurd hi (not_or.2 ⟨hjeq, hjne⟩)
  · exact hbit

/-- The effect with such a value in `FL`: the same, with that value still there unless CMP overwrote it. -/
theorem Effect.setFl (h : Effect s i t) (hf : FlAlikeFor i f s) :
    Effect (s.setFl f) i (if i.mnemonic = .cmp then t else t.setFl f) := by
  have hbit := hf.equalBit_setFl
  cases h with
  | ldi r v => exact .ldi r v
  | prn r => exact .prn r
  | hlt => exact .hlt
  | mul ra rb => exact .mul ra rb
  | add ra rb => exact .add ra rb
  | push r =>
    have h := Effect.push (s := s.setFl f) r
    rw [State.setFl_spForPush] at h
    exact h
  | popEmpty r h => exact .popEmpty r h
  | pop r h0 h1 => exact .pop r h0 h1
  | call r hpc =>
    have h := Effect.call (s := s.setFl f) r hpc
    rw [State.setFl_spForPush] at h
    exact h
  | ret => exact .ret
  | cmp ra rb => exact .cmp ra rb
  | jmp off r => exact .jmp off r
  | jeqTaken off r h => exact .jeqTaken off r ((hbit (.inl rfl)).trans h)
  | jeqNot off r h => exact .jeqNot off r ((hbit (.inl rfl)).trans h)
  | jneTaken off r h => exact .jneTaken off r ((hbit (.inr rfl)).trans h)
  | jneNot off r h => exact .jneNot off r ((hbit (.inr rfl)).trans h)

/-- What an instruction answers with such a value in `FL`: the same next state, with that value still there unless a
CMP with legal operands overwrote it. -/
theorem exec_setFl (hf : FlAlikeFor i f s) :
    ∃ t, exec i s = .next t ∧
      exec i (s.setFl f) = .next (if i.mnemonic = .cmp ∧ i.wellFormed = true then t else t.setFl f) := by
  by_cases hw : i.wellFormed = true
  · simp only [hw, and_true]
    by_cases hc : i.mnemonic = .call → s.pc ≤ 253
    · obtain ⟨t, h⟩ := effect_of_wellFormed hw hc
      exact ⟨t, h.exec_eq, (h.setFl hf).exec_eq⟩
    · obtain ⟨hcall, hpc⟩ := Classical.not_imp.1 hc
      cases i <;> cases hcall
      next b =>
        obtain ⟨r, rfl⟩ := exists_reg_of_lt (b := b) (by simpa [Instr.wellFormed, Instr.registerOperands] using hw)
        exact ⟨_, exec_call_high s r (by omega), exec_call_high (s.setFl f) r (by rw [State.setFl_pc]; omega)⟩
  · obtain ⟨b, -, -, he⟩ := exec_of_not_wellFormed hw
    refine ⟨_, he s, ?_⟩
    rw [if_neg (fun h => hw h.2)]
    exact he (s.setFl f)

/-! ## The two conditional jumps (R103, R104) -/

theorem exec_jeq_pc (off : Byte) (r : RegIdx) (s : State) :
    ∃ t, exec (.jeq off r.toByte) s = .next t ∧
      t.pc = if s.equalBit = true then jumpTarget (s.reg r) off else s.pc + 3 := by
  refine ⟨_, exec_jeq s off r, ?_⟩
  split
  · rfl
  · rw [State.advance_pc]
    omega

theorem exec_jne_pc (off : Byte) (r : RegIdx) (s : State) :
    ∃ t, exec (.jne off r.toByte) s = .next t ∧
      t.pc = if s.equalBit = false then jumpTarget (s.reg r) off else s.pc + 3 := by
  refine ⟨_, exec_jne s off r, ?_⟩
  cases s.equalBit
  · rfl
  · show s.pc + 1 + 2 = s.pc + 3
    omega

/-- Settles O40, from what an instruction leaves in `FL` (`exec_fl`), what it does with another value there
(`exec_setFl`) and where the two conditional jumps go. -/
theorem flIsSetOnlyByCmpAndReadOnlyByJeqAndJne : Obligations.FlIsSetOnlyByCmpAndReadOnlyByJeqAndJne := by
  refine ⟨fun i s t => exec_fl, fun i s f hf => ?_, exec_jeq_pc, exec_jne_pc⟩
  obtain ⟨t, ht, ht'⟩ := exec_setFl hf
  refine ⟨t, _, ht, ht', ?_⟩
  split
  · exact ⟨rfl, rfl, rfl, rfl, rfl, rfl, fun _ _ => rfl⟩
  · next hno => exact ⟨rfl, rfl, rfl, rfl, rfl, rfl, fun hcmp hw => absurd ⟨hcmp, hw⟩ hno⟩

end Sys2Proof.Machine
end

section
/-! The operand count an opcode byte announces, and where an instruction leaves `pc` (spec 40_instruction_cycle.md R67,
R72). `Effect.pc` says the second once for every instruction. -/

namespace Sys2Proof

/-- Under a valid map the top two bits of a recognised byte are its row's operand count: the byte is that row's opcode
byte, of which R54 a says so. -/
theorem operandCountOf_of_recognise {opc : OpcodeMap} (hv : opc.Valid) {ir : Byte} {m : Mnemonic}
    (h : recognise opc ir = some m) : operandCountOf ir = m.operandCount := by
  rw [← byte_of_recognise h]
  exact hv.1 m m.mem_all

/-- Settles O9: the operand count of a row is at most 2. -/
theorem topBitsOfARecognisedOpcodeAreItsOperandCount :
    Obligations.TopBitsOfARecognisedOpcodeAreItsOperandCount := by
  intro opc hv ir m h
  have hcount := operandCountOf_of_recognise hv h
  have hle := m.operandCount_le
  exact ⟨hcount, by omega⟩

namespace Machine

variable {s t : State} {i : Instr}

/-! ## Where an effect leaves `pc` -/

/-- An effect leaves `pc` at the target the instruction sets, and by the uniform advance where it sets none (R72). -/
theorem Effect.pc (h : Effect s i t) : t.pc = (nextPc? i s).getD (s.pc + 1 + i.mnemonic.operandCount) := by
  cases h with
  | push r => rw [State.advance_pc, storeAtSp_pc, State.spForPush_pc]; rfl
  | call r _ => simp [nextPc?]
  | jmp off r => simp [nextPc?]
  | jeqTaken off r h | jneTaken off r h => simp [nextPc?, h]
  | jeqNot off r h | jneNot off r h => simp [nextPc?, h, Instr.mnemonic, Mnemonic.operandCount]
  | _ => rfl

/-! ## A fatal error leaves `pc` -/

/-- No effect makes a running core's halt reason a fatal error: only HLT's changes it, to `HLT`. -/
theorem Effect.not_fatal (h : Effect s i t) (hn : s.hr = .none) : t.hr.isFatal = false := by
  rcases h.hr with ⟨hr, -⟩ | ⟨hr, -⟩
  · rw [hr, hn]; rfl
  · rw [hr]; rfl

/-- A running core's instruction that ends with a fatal error leaves `pc`. -/
theorem exec_pc_of_fatal (hn : s.hr = .none) (h : exec i s = .next t) (hf : t.hr.isFatal = true) : t.pc = s.pc := by
  rcases exec_inv h with he | ⟨b, -, -, rfl⟩ | ⟨r, -, -, rfl⟩
  · exact absurd hf (by simp [he.not_fatal hn])
  · exact State.raiseFatal_pc s _
  · exact State.raiseFatal_pc s _

/-- A step that ends with a fatal error, of the fetch or of the instruction, leaves `pc` (R72, R116). -/
theorem cycle_pc_of_fatal {opc : OpcodeMap} (h : cycle opc s = .next t) (hf : t.hr.isFatal = true) : t.pc = s.pc := by
  obtain ⟨hn, ⟨i, rest, -, he⟩ | ⟨e, -, rfl⟩⟩ := cycle_cases h
  · exact exec_pc_of_fatal hn he hf
  · exact State.raiseFatal_pc s _

/-- Settles O20, from where an effect leaves `pc` (`Effect.pc`) and what a fatal error leaves (`cycle_pc_of_fatal`). -/
theorem pcAdvancesUnlessTheInstructionSetsIt : Obligations.PcAdvancesUnlessTheInstructionSetsIt := by
  refine ⟨fun i s hw hc => ?_, fun opc s t => cycle_pc_of_fatal⟩
  obtain ⟨t, h⟩ := effect_of_wellFormed hw hc
  exact ⟨t, h.exec_eq, h.pc⟩

end Machine
end Sys2Proof
end

section
/-! The instruction that stands at `pc` is the one that runs, an instruction whose operands pass address 255 is a fatal
error (spec 40_instruction_cycle.md R65 to R71), and what LDI does (spec 41_ldi_prn_hlt.md R80). -/

namespace Sys2Proof

/-- The decoder gives an encoded instruction back, with whatever bytes follow it. -/
theorem decodeWith_encodeWith_append {opc : OpcodeMap} (hv : opc.Valid) (i : Instr) (rest : List Byte) :
    decodeWith opc (encodeWith opc i ++ rest) = .ok (i, rest) := by
  rw [encodeWith, List.cons_append, decodeWith, recognise_byte hv]
  cases i <;> rfl

/-- An encoding is at most three bytes long. -/
theorem length_encodeWith_le (opc : OpcodeMap) (i : Instr) : (encodeWith opc i).length ≤ 3 := by
  have hle := i.mnemonic.operandCount_le
  rw [encodeWith, List.length_cons, i.length_operands]
  omega

/-- Format F2 with fewer than two bytes: the first missing one is named. -/
theorem decodeF2_of_short (f : Byte → Byte → Instr) {rest : List Byte} (h : rest.length < 2) :
    decodeF2 f rest = .error (.missingOperand (rest.length + 1)) := by
  match rest, h with
  | [], _ => rfl
  | [_], _ => rfl

/-- Too few bytes for the operands of a recognised instruction: the first missing one is named (R69). -/
theorem decodeOperands_of_short {m : Mnemonic} {rest : List Byte} (h : rest.length < m.operandCount) :
    decodeOperands m rest = .error (.missingOperand (rest.length + 1)) := by
  cases m with
  | hlt | ret => exact absurd h (Nat.not_lt_zero _)
  | prn | push | pop | call =>
    obtain rfl := List.length_eq_zero_iff.1 (Nat.lt_one_iff.1 h)
    rfl
  | _ => exact decodeF2_of_short _ h

namespace Machine

variable {opc : OpcodeMap} {s t : State} {i : Instr}

/-! ## An instruction that stands at `pc` -/

/-- A fetch long enough begins with the bytes that stand at its address. -/
theorem fetchBytes_of_bytesAt {bs : List Byte} {n : Nat} {a : Int} (h : BytesAt bs a s) (hn : bs.length ≤ n) :
    ∃ rest, s.fetchBytes n a = bs ++ rest := by
  induction bs generalizing n a with
  | nil => exact ⟨_, rfl⟩
  | cons v vs ih =>
    obtain ⟨⟨p, hp, hv⟩, hvs⟩ := h
    cases n with
    | zero => exact absurd hn (Nat.not_succ_le_zero _)
    | succ n =>
      obtain ⟨rest, hrest⟩ := ih hvs (Nat.le_of_succ_le_succ hn)
      exact ⟨rest, by simp only [State.fetchBytes, hp, hv, hrest, List.cons_append]⟩

/-- A running core executes the instruction whose encoding stands at `pc`. -/
theorem cycle_of_bytesAt (hv : opc.Valid) (hn : s.hr = .none) (h : BytesAt (encodeWith opc i) s.pc s) :
    cycle opc s = exec i s := by
  obtain ⟨rest, hw⟩ := fetchBytes_of_bytesAt h (length_encodeWith_le opc i)
  refine cycle_of_ok hn (fetchInstr_ok (rest := rest) ?_)
  rw [window, hw, decodeWith_encodeWith_append hv]

/-- What an instruction answers is what the step answers where the instruction stands at `pc`. -/
theorem stepAnswers_of_exec (h : exec i s = .next t) : StepAnswers i s t :=
  fun _ hv hn hb => (cycle_of_bytesAt hv hn hb).trans h

/-! ## Operands that pass the top of memory -/

/-- The window holds the byte at `pc` and the bytes after it, two of them or as many as there are below address 256. -/
theorem window_eq_cons {p : Addr} (h : s.pc = p.toNat) :
    ∃ rest, window s = s.memRead p :: rest ∧ rest.length = min 2 (255 - p.toNat) := by
  have hp : addr? s.pc = some p := addr?_eq_some.2 h
  rcases window_cases s with ⟨hnone, -⟩ | ⟨p', hp', ⟨hpc, hw⟩ | ⟨hpc, q, -, hw⟩ | ⟨hpc, q, r, -, -, hw⟩⟩
  · exact nomatch hp.symm.trans hnone
  all_goals
    cases hp.symm.trans hp'
    refine ⟨_, hw, ?_⟩
    simp only [List.length_cons, List.length_nil]
    omega

/-- A recognised instruction whose operands pass address 255 is the fatal error OPERAND with address 256 (R69). -/
theorem cycle_of_operandBeyondMemory {p : Addr} {m : Mnemonic} (hn : s.hr = .none) (hpc : s.pc = p.toNat)
    (hm : recognise opc (s.memRead p) = some m) (hlast : 255 < s.pc + m.operandCount) :
    cycle opc s = .next (s.raiseFatal (.outOfBoundsAddress .operand 256)) := by
  obtain ⟨rest, hw, hlen⟩ := window_eq_cons hpc
  have hle := m.operandCount_le
  have hp := p.isLt
  have hshort : rest.length < m.operandCount := by omega
  have hfirst : s.pc + ((rest.length + 1 : Nat) : Int) = 256 := by omega
  have hd : decodeWith opc (window s) = .error (.missingOperand (rest.length + 1)) := by
    rw [hw, decodeWith, hm]
    exact decodeOperands_of_short hshort
  rw [cycle_of_error hn (fetchInstr_error hd), fetchError, hfirst]

/-- An instruction faults from every address on at which its last operand would be past 255. -/
theorem faultsFromOn_of_le {lowest : Int} {m : Mnemonic} (h : 256 ≤ lowest + m.operandCount) :
    FaultsFromOn lowest m := by
  intro opc hv s p hn hpc hlow hbyte
  have hm : recognise opc (s.memRead p) = some m := hbyte ▸ recognise_byte hv m
  exact ⟨_, cycle_of_operandBeyondMemory hn hpc hm (by omega), State.tookFatal_raiseFatal _ s⟩

/-! ## LDI (R80) -/

/-- One register written and `pc` past two operand bytes, as LDI and the ALU leave the state: what changed, and that
nothing else did. -/
theorem setReg_advance_two_frame (s : State) (r : RegIdx) (v : Byte) :
    ((s.setReg r v).advance 2).reg r = v ∧ ((s.setReg r v).advance 2).pc = s.pc + 3 ∧
      RegsKeptBut [r] s ((s.setReg r v).advance 2) ∧ MemKept s ((s.setReg r v).advance 2) ∧
      StatusKept s ((s.setReg r v).advance 2) := by
  refine ⟨by simp, ?_, fun q hq => ?_, fun _ => rfl, rfl, rfl, rfl, rfl⟩
  · simp only [State.advance_pc, State.setReg_pc]
    omega
  · rw [State.advance_reg, State.reg_setReg, if_neg (fun h => hq (List.mem_singleton.2 h))]

/-- LDI with a register byte above 7 raises REGISTER with that byte. -/
theorem exec_ldi_of_gt {op0 : Byte} (h : 7 < op0.toNat) (value : Byte) (s : State) :
    exec (.ldi op0 value) s = .next (s.raiseFatal (.outOfBoundsAddress .register op0.toNat)) := by
  rw [exec, execLdi, withReg_of_gt h]

/-- Settles O21, from what LDI answers (`exec_ldi`, `exec_ldi_of_gt`), that the step answers the same
(`stepAnswers_of_exec`) and that its operands must lie in memory (`faultsFromOn_of_le`). -/
theorem ldiLoadsTheValue : Obligations.LdiLoadsTheValue := by
  refine ⟨fun r value s => ?_, fun op0 value s h => ?_, faultsFromOn_of_le (by decide)⟩
  · have he := exec_ldi s r value
    exact ⟨_, he, stepAnswers_of_exec he, setReg_advance_two_frame s r value⟩
  · exact ⟨_, exec_ldi_of_gt h value s, State.tookFatal_raiseFatal _ s⟩

end Machine
end Sys2Proof
end

section
/-! The ALU (spec 42_alu.md R85 to R87). MUL and ADD differ in their operation only, so what the ALU contract says is
proved once, for any instruction that `exec` answers by `aluWriteBack`. -/

namespace Sys2Proof.Machine

/-! ## Two register operands, one of them above 7 (R70) -/

theorem withRegs_of_gt_fst {a : Byte} (h : 7 < a.toNat) (b : Byte) (s : State) (rule : RegIdx → RegIdx → State) :
    withRegs a b s rule = s.raiseFatal (.outOfBoundsAddress .register a.toNat) := by
  rw [withRegs, withReg_of_gt h]

theorem withRegs_of_gt_snd {b : Byte} (h : 7 < b.toNat) (ra : RegIdx) (s : State) (rule : RegIdx → RegIdx → State) :
    withRegs ra.toByte b s rule = s.raiseFatal (.outOfBoundsAddress .register b.toNat) := by
  rw [withRegs, withReg_toByte, withReg_of_gt h]

/-! ## The two operations as arithmetic modulo 256 -/

@[simp] theorem toNat_aluMul (a b : Byte) : (aluMul a b).toNat = a.toNat * b.toNat % 256 := by
  rw [aluMul, BitVec.toNat_ofNat, Nat.mod_mod]

@[simp] theorem toNat_aluAdd (a b : Byte) : (aluAdd a b).toNat = (a.toNat + b.toNat) % 256 := by
  rw [aluAdd, BitVec.toNat_ofNat, Nat.mod_mod]

/-! ## The ALU contract (R85) -/

section Contract

variable {instr : Byte → Byte → Instr} {op : Byte → Byte → Byte}

/-- On two registers the instruction, and the step that finds it at `pc`, leaves the operation's result in the first
one, as the number `val` says it is, and moves `pc` past the two operand bytes; nothing else changes. -/
theorem alu_writes_first_register {val : Nat → Nat → Nat}
    (hexec : ∀ a b s, exec (instr a b) s = .next (aluWriteBack op a b s))
    (hval : ∀ x y, (op x y).toNat = val x.toNat y.toNat) (ra rb : RegIdx) (s : State) :
    ∃ t, exec (instr ra.toByte rb.toByte) s = .next t ∧ StepAnswers (instr ra.toByte rb.toByte) s t ∧
      (t.reg ra).toNat = val (s.reg ra).toNat (s.reg rb).toNat ∧ t.pc = s.pc + 3 ∧
      RegsKeptBut [ra] s t ∧ MemKept s t ∧ StatusKept s t := by
  have he := hexec ra.toByte rb.toByte s
  rw [aluWriteBack, withRegs_toByte] at he
  obtain ⟨hreg, hframe⟩ := setReg_advance_two_frame s ra (op (s.reg ra) (s.reg rb))
  exact ⟨_, he, stepAnswers_of_exec he, by rw [hreg, hval], hframe⟩

/-- A first operand byte above 7 is the fatal error REGISTER with that byte, whatever the second one is. -/
theorem alu_tookFatal_fst (hexec : ∀ a b s, exec (instr a b) s = .next (aluWriteBack op a b s))
    (op0 op1 : Byte) (s : State) (h : 7 < op0.toNat) :
    ∃ t, exec (instr op0 op1) s = .next t ∧ TookFatal (.outOfBoundsAddress .register op0.toNat) s t := by
  refine ⟨_, hexec op0 op1 s, ?_⟩
  rw [aluWriteBack, withRegs_of_gt_fst h]
  exact State.tookFatal_raiseFatal _ s

/-- After a legal first operand a second one above 7 is the fatal error REGISTER with that byte. -/
theorem alu_tookFatal_snd (hexec : ∀ a b s, exec (instr a b) s = .next (aluWriteBack op a b s))
    (ra : RegIdx) (op1 : Byte) (s : State) (h : 7 < op1.toNat) :
    ∃ t, exec (instr ra.toByte op1) s = .next t ∧ TookFatal (.outOfBoundsAddress .register op1.toNat) s t := by
  refine ⟨_, hexec ra.toByte op1 s, ?_⟩
  rw [aluWriteBack, withRegs_of_gt_snd h]
  exact State.tookFatal_raiseFatal _ s

end Contract

/-! ## MUL (R86) and ADD (R87) -/

theorem exec_mul_eq_aluWriteBack (a b : Byte) (s : State) :
    exec (.mul a b) s = .next (aluWriteBack aluMul a b s) := rfl

theorem exec_add_eq_aluWriteBack (a b : Byte) (s : State) :
    exec (.add a b) s = .next (aluWriteBack aluAdd a b s) := rfl

/-- Settles O24: the ALU contract with the product modulo 256 (`toNat_aluMul`), its two register errors, and that both
operands must lie in memory (`faultsFromOn_of_le`). -/
theorem mulKeepsTheLowByteOfTheProduct : Obligations.MulKeepsTheLowByteOfTheProduct :=
  ⟨alu_writes_first_register (val := fun m n => m * n % 256) exec_mul_eq_aluWriteBack toNat_aluMul,
    alu_tookFatal_fst exec_mul_eq_aluWriteBack, alu_tookFatal_snd exec_mul_eq_aluWriteBack,
    faultsFromOn_of_le (by decide)⟩

/-- Settles O25: the ALU contract with the sum modulo 256 (`toNat_aluAdd`), its two register errors, and that both
operands must lie in memory (`faultsFromOn_of_le`). -/
theorem addWrapsModulo256 : Obligations.AddWrapsModulo256 :=
  ⟨alu_writes_first_register (val := fun m n => (m + n) % 256) exec_add_eq_aluWriteBack toNat_aluAdd,
    alu_tookFatal_fst exec_add_eq_aluWriteBack, alu_tookFatal_snd exec_add_eq_aluWriteBack,
    faultsFromOn_of_le (by decide)⟩

end Sys2Proof.Machine
end

section
/-! The stack (spec 43_stack.md R91): consecutive pushes lie from below SP downward. `PushedDown` says it for any SP that
leaves room for them; R91's own layout is the case of SP at the sentinel. -/

namespace Sys2Proof.Machine

variable {s t u : State} {rs : List RegIdx}

/-! ## One PUSH and one POP of a register other than SP (R92, R93) -/

/-- PUSH stores the register at the SP it moves to, and changes no other byte and no register but SP. -/
theorem exec_push_of_ne_spReg {r : RegIdx} (hr : r ≠ spReg) (s : State) :
    ∃ u, exec (.push r.toByte) s = .next u ∧ u.sp = (if s.sp = 0 then stackTop - 1 else s.sp - 1) ∧
      (∀ a : Addr, u.memRead a = if a = u.sp then s.reg r else s.memRead a) ∧
      (∀ q : RegIdx, q ≠ spReg → u.reg q = s.reg q) := by
  refine ⟨_, exec_push s r, ?_, fun a => ?_, fun q hq => ?_⟩
  · rw [State.advance_sp, storeAtSp, State.memWrite_sp, State.spForPush_sp]
  · rw [State.advance_memRead, storeAtSp_memRead, State.spForPush_reg, if_neg hr, State.spForPush_memRead]
    rfl
  · rw [State.advance_reg, storeAtSp_reg, State.spForPush_reg, if_neg hq]

/-- POP on a stack that is not empty loads the byte at SP and moves SP up by one. -/
theorem exec_pop_of_ne_spReg {q : RegIdx} (hq : q ≠ spReg) (h0 : s.sp ≠ 0) (h1 : s.sp ≠ stackTop) :
    ∃ u, exec (.pop q.toByte) s = .next u ∧ u.reg q = s.memRead s.sp ∧ u.sp = s.sp + 1 := by
  refine ⟨_, exec_pop s q h0 h1, ?_, ?_⟩
  · simp [hq]
  · simp [hq.symm]

/-! ## Pushes in a row -/

/-- A sequence whose first instruction answers a next state goes on from that state. -/
theorem execAll_cons_of_next {i : Instr} (h : exec i s = .next u) (is : List Instr) :
    execAll (i :: is) s = execAll is u := by
  rw [execAll, h]

/-- `t` is `s` after pushes of the registers `rs`: SP is lower by their number, their bytes lie from below the SP of `s`
downward, the newest lowest, and every other byte and register is as in `s`. -/
structure PushedDown (rs : List RegIdx) (s t : State) : Prop where
  sp : t.sp.toNat = s.sp.toNat - rs.length
  entry : ∀ (a : Addr) (k : Nat) (h : k < rs.length), a.toNat + k + 1 = s.sp.toNat → t.memRead a = s.reg rs[k]
  mem : ∀ a : Addr, a.toNat < s.sp.toNat - rs.length ∨ s.sp.toNat ≤ a.toNat → t.memRead a = s.memRead a
  reg : ∀ q : RegIdx, q ≠ spReg → t.reg q = s.reg q

theorem PushedDown.nil (s : State) : PushedDown [] s s :=
  ⟨rfl, fun _ _ h => absurd h (Nat.not_lt_zero _), fun _ _ => rfl, fun _ _ => rfl⟩

/-- A push to the byte below SP comes first, then the others below it: they leave its byte alone. -/
theorem PushedDown.cons {r : RegIdx} (h : PushedDown rs u t) (hrs : ∀ q ∈ rs, q ≠ spReg)
    (hsp : u.sp.toNat + 1 = s.sp.toNat)
    (hmem : ∀ a : Addr, u.memRead a = if a = u.sp then s.reg r else s.memRead a)
    (hreg : ∀ q : RegIdx, q ≠ spReg → u.reg q = s.reg q) : PushedDown (r :: rs) s t where
  sp := by
    rw [h.sp, List.length_cons]
    omega
  entry a k hk ha := by
    cases k with
    | zero =>
      obtain rfl : a = u.sp := BitVec.eq_of_toNat_eq (by omega)
      rw [h.mem u.sp (.inr (Nat.le_refl _)), hmem, if_pos rfl]
      rfl
    | succ k =>
      have hk : k < rs.length := Nat.lt_of_succ_lt_succ hk
      rw [h.entry a k hk (by omega), hreg _ (hrs _ (List.getElem_mem hk))]
      rfl
  mem a ha := by
    rw [List.length_cons] at ha
    have hne : a ≠ u.sp := by
      rintro rfl
      omega
    rw [h.mem a (by omega), hmem, if_neg hne]
  reg q hq := by rw [h.reg q hq, hreg q hq]

/-- As many pushes as there are bytes below SP fill them downward. -/
theorem execAll_push_pushedDown (hrs : ∀ r ∈ rs, r ≠ spReg) (hlen : rs.length ≤ s.sp.toNat) :
    ∃ t, execAll (rs.map fun r => .push r.toByte) s = .next t ∧ PushedDown rs s t := by
  induction rs generalizing s with
  | nil => exact ⟨s, rfl, .nil s⟩
  | cons r rs ih =>
    obtain ⟨hr, hrs⟩ := List.forall_mem_cons.1 hrs
    rw [List.length_cons] at hlen
    obtain ⟨u, he, hsp, hmem, hreg⟩ := exec_push_of_ne_spReg hr s
    have hpos : s.sp ≠ 0 := by bv_omega
    rw [if_neg hpos] at hsp
    have hlow : u.sp.toNat + 1 = s.sp.toNat := by bv_omega
    obtain ⟨t, ht, hdown⟩ := ih hrs (s := u) (by omega)
    exact ⟨t, (execAll_cons_of_next he _).trans ht, hdown.cons hrs hlow hmem hreg⟩

/-- The newest byte lies at SP. -/
theorem PushedDown.memRead_sp (h : PushedDown rs s t) (hne : rs ≠ []) (hlen : rs.length ≤ s.sp.toNat) :
    t.memRead t.sp = s.reg (rs.getLast hne) := by
  have hpos : 0 < rs.length := List.length_pos_iff.2 hne
  have hsp := h.sp
  rw [h.entry t.sp (rs.length - 1) (by omega) (by omega), List.getLast_eq_getElem]

/-- Settles O39: the layout is that of pushes in a row (`execAll_push_pushedDown`) from SP 0xF4; after 244 of them SP is
0, from which PUSH starts at the sentinel again, and after 1 to 243 POP finds the newest byte at SP. -/
theorem pushesFillTheStackDownwardFromTheSentinel : Obligations.PushesFillTheStackDownwardFromTheSentinel := by
  intro rs s hrs hlen hs
  have htop : s.sp.toNat = 0xF4 := by rw [hs]; rfl
  obtain ⟨t, ht, h⟩ := execAll_push_pushedDown hrs (by omega : rs.length ≤ s.sp.toNat)
  have hsp : t.sp.toNat = 0xF4 - rs.length := htop ▸ h.sp
  refine ⟨t, ht, hsp, fun k hk => h.entry _ k hk ?_, htop ▸ h.mem, fun hfull r hr => ?_, fun hne hroom q hq => ?_⟩
  · rw [BitVec.toNat_ofNat]
    omega
  · obtain ⟨u, hu, husp, hmem, -⟩ := exec_push_of_ne_spReg hr t
    have hzero : t.sp = 0 := BitVec.eq_of_toNat_eq (by rw [hsp, hfull]; rfl)
    rw [if_pos hzero] at husp
    exact ⟨u, hu, husp, ((hmem 0xF3).trans (if_pos husp.symm)).trans (h.reg r hr)⟩
  · have hpos : 0 < rs.length := List.length_pos_iff.2 hne
    have h0 : t.sp ≠ 0 := by bv_omega
    have h1 : t.sp ≠ 0xF4 := by bv_omega
    obtain ⟨u, hu, hload, hup⟩ := exec_pop_of_ne_spReg hq h0 h1
    exact ⟨u, hu, hload.trans (h.memRead_sp hne (by omega)), hup⟩

end Sys2Proof.Machine
end

section
/-! CALL and RET (spec 44_call_ret.md R97): RET undoes the CALL whose return address lies at SP. -/

namespace Sys2Proof.Machine

variable {s : State}

/-- The return address of a CALL at 0 to 253 fits in the byte CALL stores (R95, D11). -/
theorem toNat_ofInt_returnAddress (h0 : 0 ≤ s.pc) (h253 : s.pc ≤ 253) :
    ((BitVec.ofInt 8 (s.pc + 2)).toNat : Int) = s.pc + 2 := by
  rw [BitVec.toNat_ofInt]
  omega

theorem storeAtSp_sp (v : Byte) (s : State) : (storeAtSp v s).sp = s.sp := rfl

/-- CALL moves SP as PUSH does and leaves the return address at the SP it moved to (R95). -/
theorem exec_call_leaves_returnAddress (r : RegIdx) (h0 : 0 ≤ s.pc) (h253 : s.pc ≤ 253) :
    ∃ t, exec (.call r.toByte) s = .next t ∧ t.sp = (if s.sp = 0 then stackTop - 1 else s.sp - 1) ∧
      ((t.memRead t.sp).toNat : Int) = s.pc + 2 := by
  refine ⟨_, exec_call s r h253, ?_, ?_⟩
  · rw [State.jumpTo_sp, storeAtSp_sp, State.spForPush_sp]
  · rw [State.jumpTo_memRead, State.jumpTo_sp, storeAtSp_sp, storeAtSp_memRead, if_pos rfl,
      toNat_ofInt_returnAddress h0 h253]

/-- RET goes to the address in the byte at SP and moves SP up by one (R96). -/
theorem exec_ret_jumps (u : State) :
    ∃ v, exec .ret u = .next v ∧ v.pc = (u.memRead u.sp).toNat ∧ v.sp = u.sp + 1 :=
  ⟨_, exec_ret u, State.jumpTo_pc _ _, State.spIncrement_sp u⟩

/-- Moving SP up undoes what CALL did to it, except that from 0 it ends at the sentinel (R97). -/
theorem spForPush_value_add_one (sp : Byte) :
    (if sp = 0 then stackTop - 1 else sp - 1) + 1 = if sp = 0 then stackTop else sp := by
  split
  · rfl
  · exact BitVec.sub_add_cancel sp 1

/-- Settles O38: CALL leaves its return address at SP (`exec_call_leaves_returnAddress`), RET jumps to the address it
finds there (`exec_ret_jumps`), and its move of SP undoes that of CALL (`spForPush_value_add_one`). -/
theorem retReturnsPastTheMatchingCall : Obligations.RetReturnsPastTheMatchingCall := by
  intro r s h0 h253
  obtain ⟨t, hcall, hsp, hstored⟩ := exec_call_leaves_returnAddress r h0 h253
  refine ⟨t, hcall, hstored, fun hone => ?_, fun u husp hbyte => ?_⟩
  · rw [hsp, hone]
    rfl
  · obtain ⟨v, hret, hpc, hvsp⟩ := exec_ret_jumps u
    refine ⟨v, hret, ?_, ?_⟩
    · rw [hpc, husp, hbyte, hstored]
    · rw [hvsp, husp, hsp]
      exact spForPush_value_add_one s.sp

end Sys2Proof.Machine
end

section
/-! Errors (spec 60_exceptions.md): the unknown opcode byte (R111), the end of the run by a fatal error (R116), and the
one recoverable error, which only a POP on an empty stack raises (R113). -/

namespace Sys2Proof.Machine

variable {opc : OpcodeMap} {s t : State} {i : Instr}

/-! ## The unknown opcode byte (R111) -/

/-- The fetch stops at an opcode byte that is no instruction's, whatever bytes follow it (R68). -/
theorem cycle_of_unknownOpcode {p : Addr} (hn : s.hr = .none) (hpc : s.pc = p.toNat)
    (hop : recognise opc (s.memRead p) = none) :
    cycle opc s = .next (s.raiseFatal (.unknownInstruction (s.memRead p))) := by
  obtain ⟨rest, hw⟩ := window_head hpc
  have hd : decodeWith opc (window s) = .error (.unknownOpcode (s.memRead p)) := by rw [hw, decodeWith, hop]
  exact cycle_of_error hn (fetchInstr_error hd)

/-- Settles O14: a byte that no mnemonic has is unrecognised (`recognise_eq_none`), so the step takes that error
(`cycle_of_unknownOpcode`). -/
theorem unknownOpcodeHaltsAndReportsPcAndOpcode : Obligations.UnknownOpcodeHaltsAndReportsPcAndOpcode := by
  intro opc s p hn hpc hop
  exact ⟨_, cycle_of_unknownOpcode hn hpc (recognise_eq_none.2 hop), rfl, rfl, rfl, rfl,
    State.tookFatal_raiseFatal _ s⟩

/-! ## The end of the run by a fatal error (R116) -/

/-- A running core's instruction that ends with a fatal error took that error and did nothing else: an effect ends with
none (`Effect.not_fatal`). -/
theorem exec_tookFatal (hn : s.hr = .none) (h : exec i s = .next t) (hf : t.hr.isFatal = true) :
    ∃ e, TookFatal e s t := by
  rcases exec_inv h with he | ⟨b, -, -, rfl⟩ | ⟨r, -, -, rfl⟩
  · exact absurd hf (by simp [he.not_fatal hn])
  · exact ⟨_, State.tookFatal_raiseFatal _ s⟩
  · exact ⟨_, State.tookFatal_raiseFatal _ s⟩

/-- A step that ends with a fatal error, of the fetch or of the instruction, took that error and did nothing else. -/
theorem cycle_tookFatal (h : cycle opc s = .next t) (hf : t.hr.isFatal = true) : ∃ e, TookFatal e s t := by
  obtain ⟨hn, ⟨i, rest, -, he⟩ | ⟨e, -, rfl⟩⟩ := cycle_cases h
  · exact exec_tookFatal hn he hf
  · exact ⟨_, State.tookFatal_raiseFatal _ s⟩

/-- No step follows a fatal error: a step needs `hr` to be `NONE` (R75). -/
theorem cycle_ne_next_of_fatal (hf : s.hr.isFatal = true) (opc : OpcodeMap) (t : State) : cycle opc s ≠ .next t := by
  intro h
  obtain ⟨hn, -⟩ := cycle_cases h
  rw [hn] at hf
  cases hf

/-- Settles O18, from what a step that ends with a fatal error did (`cycle_tookFatal`) and that none follows it
(`cycle_ne_next_of_fatal`). -/
theorem fatalErrorsChangeOnlyTheHaltReasonAndDiag : Obligations.FatalErrorsChangeOnlyTheHaltReasonAndDiag :=
  fun _ _ _ h hf => ⟨cycle_tookFatal h hf, cycle_ne_next_of_fatal hf⟩

/-! ## The recoverable error (R113) -/

/-- Of the effects only that of a POP on an empty stack appends to `diag`. -/
theorem Effect.diag (h : Effect s i t) (hi : i.mnemonic ≠ .pop ∨ (s.sp ≠ 0 ∧ s.sp ≠ stackTop)) :
    t.diag = s.diag := by
  cases h with
  | popEmpty r hempty =>
    obtain ⟨h0, h1⟩ := hi.resolve_left fun hne => hne rfl
    exact absurd hempty (not_or.2 ⟨h0, h1⟩)
  | push r => simp only [State.advance_diag, storeAtSp_diag, State.spForPush_diag]
  | call r hpc => simp only [State.jumpTo_diag, storeAtSp_diag, State.spForPush_diag]
  | _ => rfl

/-- The event a fatal error appends is no StackUnderflow. -/
theorem State.raiseFatal_underflowCount (e : FatalError) (s : State) :
    (s.raiseFatal e).underflowCount = s.underflowCount := by
  simp [State.underflowCount]

/-- Every instruction but a POP on an empty stack leaves the number of StackUnderflow events: its effect appends no
event, and its fatal error appends another kind. -/
theorem exec_underflowCount (h : exec i s = .next t) (hi : i.mnemonic ≠ .pop ∨ (s.sp ≠ 0 ∧ s.sp ≠ stackTop)) :
    t.underflowCount = s.underflowCount := by
  rcases exec_inv h with he | ⟨b, -, -, rfl⟩ | ⟨r, -, -, rfl⟩
  · rw [State.underflowCount, State.underflowCount, he.diag hi]
  · exact State.raiseFatal_underflowCount _ s
  · exact State.raiseFatal_underflowCount _ s

/-- The skipped POP appends its event and moves `pc` past its one operand byte, and changes nothing else. -/
theorem raiseStackUnderflow_advance_one_frame (s : State) :
    (s.raiseStackUnderflow.advance 1).diag = s.diag ++ [.stackUnderflow s.pc] ∧
      (s.raiseStackUnderflow.advance 1).pc = s.pc + 2 ∧
      RegsKeptBut [] s (s.raiseStackUnderflow.advance 1) ∧ MemKept s (s.raiseStackUnderflow.advance 1) ∧
      (s.raiseStackUnderflow.advance 1).fl = s.fl ∧ (s.raiseStackUnderflow.advance 1).hr = s.hr ∧
      (s.raiseStackUnderflow.advance 1).out = s.out := by
  refine ⟨rfl, ?_, fun _ _ => rfl, fun _ => rfl, rfl, rfl, rfl⟩
  rw [State.advance_pc, State.raiseStackUnderflow_pc]
  omega

/-- Settles O29, from what a POP on an empty stack answers (`exec_pop_empty`), what that leaves unchanged, and that no
other instruction adds a StackUnderflow event (`exec_underflowCount`). -/
theorem popOnAnEmptyStackReportsAndIsSkipped : Obligations.PopOnAnEmptyStackReportsAndIsSkipped :=
  ⟨fun r s hempty => ⟨_, exec_pop_empty s r hempty, raiseStackUnderflow_advance_one_frame s⟩,
    fun _ _ _ => exec_underflowCount⟩

end Sys2Proof.Machine
end

section
/-! The decoder and the encoder undo each other (spec 30_encoding.md sections 1 to 4), and how many byte values are no
opcode (R57). `decodeOperands_eq_ok_iff` says once when the operand bytes of a row decode, and to what. -/

namespace Sys2Proof

variable {opc : OpcodeMap} {m : Mnemonic} {i : Instr} {bs rest : List Byte}

/-! ## Operand bytes -/

/-- Format F1 answers only where there is a byte, which is the operand. -/
theorem decodeF1_eq_ok {f : Byte → Instr} (h : decodeF1 f bs = .ok (i, rest)) :
    ∃ op0, i = f op0 ∧ bs = op0 :: rest := by
  match bs, h with
  | op0 :: _, rfl => exact ⟨op0, rfl, rfl⟩

/-- Format F2 answers only where there are two bytes, which are the operands in order. -/
theorem decodeF2_eq_ok {f : Byte → Byte → Instr} (h : decodeF2 f bs = .ok (i, rest)) :
    ∃ op0 op1, i = f op0 op1 ∧ bs = op0 :: op1 :: rest := by
  match bs, h with
  | op0 :: op1 :: _, rfl => exact ⟨op0, op1, rfl, rfl⟩

/-- A row's operand bytes decode to an instruction exactly when it is of that row and they begin with its operands. -/
theorem decodeOperands_eq_ok_iff :
    decodeOperands m bs = .ok (i, rest) ↔ i.mnemonic = m ∧ bs = i.operands ++ rest := by
  constructor
  · intro h
    cases m with
    | hlt | ret => cases h; exact ⟨rfl, rfl⟩
    | prn | push | pop | call =>
      obtain ⟨op0, rfl, rfl⟩ := decodeF1_eq_ok h
      exact ⟨rfl, rfl⟩
    | ldi | mul | add | cmp | jmp | jeq | jne =>
      obtain ⟨op0, op1, rfl, rfl⟩ := decodeF2_eq_ok h
      exact ⟨rfl, rfl⟩
  · rintro ⟨rfl, rfl⟩
    cases i <;> rfl

/-- A byte sequence decodes to an instruction exactly when its first byte is recognised as the instruction's row and
the bytes after it begin with the operands. -/
theorem decodeWith_cons_eq_ok_iff {ir : Byte} :
    decodeWith opc (ir :: bs) = .ok (i, rest) ↔
      recognise opc ir = some i.mnemonic ∧ bs = i.operands ++ rest := by
  rw [decodeWith]
  cases recognise opc ir with
  | none => exact ⟨nofun, nofun⟩
  | some m =>
    rw [decodeOperands_eq_ok_iff, Option.some_inj]
    exact and_congr_left fun _ => eq_comm

/-! ## The round trips -/

/-- Settles O6: the round trip under every valid map (`decodeWith_encodeWith_append`). -/
theorem decodingAnEncodedInstructionGivesItBack : Obligations.DecodingAnEncodedInstructionGivesItBack :=
  fun _ hv i rest => decodeWith_encodeWith_append hv i rest

/-- Settles O7: the opcode byte is recognised as the row whose byte it is (`byte_of_recognise`), and the bytes after it
are the operands (`decodeWith_cons_eq_ok_iff`). -/
theorem decodedBytesAreTheEncoding : Obligations.DecodedBytesAreTheEncoding := by
  intro opc bytes rest i h
  cases bytes with
  | nil => cases h
  | cons ir bytes =>
    obtain ⟨hrow, hops⟩ := decodeWith_cons_eq_ok_iff.1 h
    rw [encodeWith, byte_of_recognise hrow, hops, List.cons_append]

/-- Settles O8: the default map is a closed fact to decide, and each word decodes by evaluation. -/
theorem listedWordsDecodeToTheirInstructions : Obligations.ListedWordsDecodeToTheirInstructions :=
  ⟨by decide, rfl, rfl, rfl, rfl, rfl, rfl, rfl, rfl, rfl, rfl, rfl, rfl, rfl⟩

/-! ## The bytes that are no opcode (R57) -/

/-- The thirteen opcode bytes of a map. -/
def OpcodeMap.opcodes (opc : OpcodeMap) : List Byte := Mnemonic.all.map opc.byte

theorem OpcodeMap.mem_opcodes {b : Byte} : b ∈ opc.opcodes ↔ ∃ m, opc.byte m = b := by
  simp [OpcodeMap.opcodes, Mnemonic.mem_all]

/-- A byte is recognised exactly when it is among the opcode bytes. -/
theorem recognise_eq_none_iff_notMem {b : Byte} : recognise opc b = none ↔ b ∉ opc.opcodes := by
  rw [recognise_eq_none, OpcodeMap.mem_opcodes, not_exists]

/-- The 256 byte values. -/
def allBytes : List Byte := (List.range 256).map (BitVec.ofNat 8)

theorem mem_allBytes (b : Byte) : b ∈ allBytes :=
  List.mem_map.2 ⟨b.toNat, List.mem_range.2 b.isLt, by simp⟩

theorem nodup_allBytes : allBytes.Nodup := by
  refine List.Nodup.map_on (fun a ha b hb h => ?_) List.nodup_range
  have ha := List.mem_range.1 ha
  have hb := List.mem_range.1 hb
  have h := congrArg BitVec.toNat h
  rw [BitVec.toNat_ofNat, BitVec.toNat_ofNat] at h
  omega

/-- Of the 256 byte values as many lie in a list of distinct bytes as the list is long. -/
theorem countP_mem_allBytes (h : bs.Nodup) : allBytes.countP (· ∈ bs) = bs.length := by
  rw [List.countP_eq_length_filter]
  refine List.Perm.length_eq ((List.perm_ext_iff_of_nodup (nodup_allBytes.filter _) h).2 fun b => ?_)
  simp [mem_allBytes]

/-- Settles O10: the unrecognised bytes are those outside the thirteen opcode bytes, which a valid map keeps distinct
(R54 b). -/
theorem twoHundredFortyThreeBytesAreUnrecognised : Obligations.TwoHundredFortyThreeBytesAreUnrecognised := by
  intro opc hv
  have hin : allBytes.countP (· ∈ opc.opcodes) = 13 := countP_mem_allBytes hv.2
  have hall := allBytes.length_eq_countP_add_countP (· ∈ opc.opcodes)
  have hout : (allBytes.countP fun b => recognise opc b == none) = allBytes.countP (· ∉ opc.opcodes) :=
    List.countP_congr fun b _ => by simp [recognise_eq_none_iff_notMem]
  have hlen : allBytes.length = 256 := by simp [allBytes]
  have hmap : (allBytes.countP fun b => recognise opc b == none) =
      (List.range 256).countP fun k => recognise opc (BitVec.ofNat 8 k) == none := List.countP_map ..
  rw [← hmap, hout]
  simp only [decide_eq_true_eq] at hall
  omega

end Sys2Proof
end

section
/-! The fetch and the step around it (spec 40_instruction_cycle.md R65 to R71). `fetchInstr_eq_ok_iff` says once when
the fetch finds an instruction, under any opcode map; the errors of a fetch that finds none stand beside it. -/

namespace Sys2Proof

/-- The instruction of a row with these operand bytes, as many of them as the row has (R53, R55). -/
def Mnemonic.instr (m : Mnemonic) (op0 op1 : Byte) : Instr :=
  match m with
  | .ldi => .ldi op0 op1
  | .prn => .prn op0
  | .hlt => .hlt
  | .mul => .mul op0 op1
  | .add => .add op0 op1
  | .push => .push op0
  | .pop => .pop op0
  | .call => .call op0
  | .ret => .ret
  | .cmp => .cmp op0 op1
  | .jmp => .jmp op0 op1
  | .jeq => .jeq op0 op1
  | .jne => .jne op0 op1

theorem Mnemonic.mnemonic_instr (m : Mnemonic) (op0 op1 : Byte) : (m.instr op0 op1).mnemonic = m := by
  cases m <;> rfl

theorem Mnemonic.operands_instr (m : Mnemonic) (op0 op1 : Byte) :
    (m.instr op0 op1).operands = [op0, op1].take m.operandCount := by
  cases m <;> rfl

namespace Machine

variable {opc : OpcodeMap} {s : State} {i : Instr} {p : Addr} {m : Mnemonic}

/-! ## Bytes at an address -/

/-- The bytes a fetch begins with stand at its address. -/
theorem bytesAt_of_fetchBytes {bs rest : List Byte} {n : Nat} {a : Int} (h : s.fetchBytes n a = bs ++ rest) :
    BytesAt bs a s := by
  induction bs generalizing n a with
  | nil => exact trivial
  | cons v vs ih =>
    cases n with
    | zero => cases h
    | succ n =>
      rw [State.fetchBytes] at h
      split at h
      · cases h
      · next q hq =>
        obtain ⟨hv, hvs⟩ := List.cons.inj h
        exact ⟨⟨q, hq, hv⟩, ih hvs⟩

/-- Bytes that stand from an address on end below address 256. -/
theorem length_le_of_bytesAt {bs : List Byte} {a : Int} (h : BytesAt bs a s) (ha : a ≤ 256) :
    a + bs.length ≤ 256 := by
  induction bs generalizing a with
  | nil => simpa using ha
  | cons v vs ih =>
    obtain ⟨⟨q, hq, -⟩, hvs⟩ := h
    have hq := addr?_eq_some.1 hq
    have := q.isLt
    have := ih hvs (by omega)
    rw [List.length_cons]
    omega

/-! ## The fetch that succeeds -/

/-- The window is the byte at `pc` and the at most two bytes after it. -/
theorem window_eq_memRead_cons (hpc : s.pc = p.toNat) : window s = s.memRead p :: s.fetchBytes 2 (s.pc + 1) := by
  simp only [window, State.fetchBytes, addr?_eq_some.2 hpc]

/-- The fetch finds an instruction exactly when the byte at `pc` is recognised as its row and its operand bytes stand
behind that byte. -/
theorem fetchInstr_eq_ok_iff :
    fetchInstr opc s = .ok i ↔
      ∃ p : Addr, s.pc = p.toNat ∧ recognise opc (s.memRead p) = some i.mnemonic ∧ BytesAt i.operands (s.pc + 1) s := by
  constructor
  · intro h
    cases hd : decodeWith opc (window s) with
    | error e => cases (fetchInstr_error hd).symm.trans h
    | ok found =>
      obtain ⟨j, rest⟩ := found
      cases (fetchInstr_ok hd).symm.trans h
      rcases window_cases s with ⟨-, hw⟩ | ⟨p, hp, -⟩
      · rw [hw] at hd
        cases hd
      · have hpc := addr?_eq_some.1 hp
        rw [window_eq_memRead_cons hpc, decodeWith_cons_eq_ok_iff] at hd
        exact ⟨p, hpc, hd.1, bytesAt_of_fetchBytes hd.2⟩
  · rintro ⟨p, hpc, hrow, hops⟩
    have hlen : i.operands.length ≤ 2 := i.length_operands ▸ i.mnemonic.operandCount_le
    obtain ⟨rest, hrest⟩ := fetchBytes_of_bytesAt hops hlen
    refine fetchInstr_ok (rest := rest) ?_
    rw [window_eq_memRead_cons hpc, decodeWith_cons_eq_ok_iff]
    exact ⟨hrow, hrest⟩

/-- An instruction that was fetched lies inside memory with all its operands. -/
theorem pc_range_of_fetchInstr (h : fetchInstr opc s = .ok i) :
    0 ≤ s.pc ∧ s.pc + i.mnemonic.operandCount ≤ 255 := by
  obtain ⟨p, hpc, -, hops⟩ := fetchInstr_eq_ok_iff.1 h
  have := p.isLt
  have := length_le_of_bytesAt hops (by omega)
  rw [i.length_operands] at this
  omega

/-! ## The fetch that fails -/

/-- No byte can be fetched at a `pc` outside memory (R66). -/
theorem fetchInstr_of_pcOutside (h : s.pc < 0 ∨ 255 < s.pc) :
    fetchInstr opc s = .error (.outOfBoundsAddress .fetch s.pc) := by
  have hw : window s = [] := by simp only [window, State.fetchBytes, addr?_eq_none.2 h]
  have hd : decodeWith opc (window s) = .error .noOpcode := by rw [hw, decodeWith]
  exact fetchInstr_error hd

theorem cycle_of_pcOutside (hn : s.hr = .none) (h : s.pc < 0 ∨ 255 < s.pc) :
    cycle opc s = .next (s.raiseFatal (.outOfBoundsAddress .fetch s.pc)) :=
  cycle_of_error hn (fetchInstr_of_pcOutside h)

/-! ## Every fetch -/

/-- At an address inside memory stands the byte memory reads there. -/
theorem exists_addr_memRead_eq {a : Int} (h0 : 0 ≤ a) (h255 : a ≤ 255) (s : State) :
    ∃ q : Addr, addr? a = some q ∧ s.memRead q = s.mem.read a.toNat := by
  cases hq : addr? a with
  | none =>
    have := addr?_eq_none.1 hq
    omega
  | some q =>
    have hq := addr?_eq_some.1 hq
    exact ⟨q, rfl, by rw [hq, Int.toNat_natCast]; rfl⟩

/-- The instruction of the row `m` whose operand bytes are those memory holds behind `pc`. -/
def instrAtPc (m : Mnemonic) (s : State) : Instr :=
  m.instr (s.mem.read (s.pc + 1).toNat) (s.mem.read (s.pc + 2).toNat)

/-- A recognised row whose operands lie inside memory is fetched, with the bytes memory holds there. -/
theorem fetchInstr_of_operandsInside (hpc : s.pc = p.toNat) (hrow : recognise opc (s.memRead p) = some m)
    (hlast : s.pc + m.operandCount ≤ 255) : fetchInstr opc s = .ok (instrAtPc m s) := by
  refine fetchInstr_eq_ok_iff.2 ⟨p, hpc, hrow.trans (congrArg some (m.mnemonic_instr _ _).symm), ?_⟩
  have hle := m.operandCount_le
  have hnext : s.pc + 1 + 1 = s.pc + 2 := by omega
  rw [instrAtPc, m.operands_instr]
  generalize m.operandCount = n at hlast hle ⊢
  match n with
  | 0 => exact trivial
  | 1 => exact ⟨exists_addr_memRead_eq (by omega) (by omega) s, trivial⟩
  | 2 =>
    refine ⟨exists_addr_memRead_eq (by omega) (by omega) s, ?_, trivial⟩
    rw [hnext]
    exact exists_addr_memRead_eq (by omega) (by omega) s

/-- Everything a fetch can meet: `pc` outside memory, an unrecognised byte, operands past address 255, or an
instruction (R66, R68, R69). -/
theorem fetch_cases (opc : OpcodeMap) (s : State) :
    (s.pc < 0 ∨ 255 < s.pc) ∨
      (∃ p : Addr, s.pc = p.toNat ∧ recognise opc (s.memRead p) = none) ∨
      (∃ (p : Addr) (m : Mnemonic), s.pc = p.toNat ∧ recognise opc (s.memRead p) = some m ∧
        255 < s.pc + m.operandCount) ∨
      (∃ (p : Addr) (m : Mnemonic), s.pc = p.toNat ∧ recognise opc (s.memRead p) = some m ∧
        s.pc + m.operandCount ≤ 255) := by
  cases hp : addr? s.pc with
  | none => exact .inl (addr?_eq_none.1 hp)
  | some p =>
    have hpc := addr?_eq_some.1 hp
    cases hrow : recognise opc (s.memRead p) with
    | none => exact .inr (.inl ⟨p, hpc, hrow⟩)
    | some m =>
      rcases lt_or_ge 255 (s.pc + m.operandCount) with hlast | hlast
      · exact .inr (.inr (.inl ⟨p, m, hpc, hrow, hlast⟩))
      · exact .inr (.inr (.inr ⟨p, m, hpc, hrow, hlast⟩))

/-! ## The statements on the step -/

/-- Settles O11: a decoded instruction is a fetched one (`fetchInstr_ok`), which a running core executes. -/
theorem stepRunsTheDecodedInstruction : Obligations.StepRunsTheDecodedInstruction :=
  fun _ _ _ hn => ⟨fun _ hd => cycle_of_ok hn (fetchInstr_ok hd), fun hd => cycle_of_ok hn (fetchInstr_ok hd)⟩

/-- Settles O12, by `cycle_of_bytesAt`. -/
theorem instructionStoredAtPcIsTheOneThatRuns : Obligations.InstructionStoredAtPcIsTheOneThatRuns :=
  fun _ hv _ _ hn hb => cycle_of_bytesAt hv hn hb

/-- Settles O13, by `cycle_of_pcOutside`. -/
theorem pcOutsideMemoryFaultsAtTheFetch : Obligations.PcOutsideMemoryFaultsAtTheFetch :=
  fun _ s hn hpc => ⟨_, cycle_of_pcOutside hn hpc, State.tookFatal_raiseFatal _ s⟩

/-- Settles O15: a recognised byte announces its row's operand count, at most 2, so one that announces 3 is
unrecognised, and that is found before any operand is looked at (`cycle_of_unknownOpcode`). -/
theorem opcodeWithTopBitsElevenIsUnknown : Obligations.OpcodeWithTopBitsElevenIsUnknown := by
  intro opc hv s p hn hpc htop
  have hop : recognise opc (s.memRead p) = none := by
    cases hrow : recognise opc (s.memRead p) with
    | none => rfl
    | some m =>
      have hcount := operandCountOf_of_recognise hv hrow
      have hle := m.operandCount_le
      omega
  exact ⟨_, cycle_of_unknownOpcode hn hpc hop, State.tookFatal_raiseFatal _ s⟩

/-- Settles O16, by `cycle_of_operandBeyondMemory`. -/
theorem operandBeyondMemoryFaults : Obligations.OperandBeyondMemoryFaults :=
  fun _ s _ _ hn hpc hrow hlast =>
    ⟨_, cycle_of_operandBeyondMemory hn hpc hrow hlast, State.tookFatal_raiseFatal _ s⟩

end Machine
end Sys2Proof
end

section
/-! What each instruction changes and what it leaves unchanged (spec 10_state.md R11, 41_ldi_prn_hlt.md to
45_cmp_jumps.md). The frames are proved once for every effect; the statement of an instruction is its effect with
them. -/

namespace Sys2Proof.Machine

variable {s t : State} {i : Instr}

/-! ## The frames of an effect -/

/-- An effect writes only the registers the table of R11 names. -/
theorem Effect.regs (h : Effect s i t) : RegsKeptBut (registersWritten i) s t := by
  intro q hq
  cases h with
  | ldi r v | mul ra rb | add ra rb => simp_all [registersWritten]
  | pop r h0 h1 => simp_all [registersWritten]
  | push r | call r hpc | ret => simp_all [registersWritten]
  | _ => rfl

/-- Of the effects only those of PUSH and CALL store, each one byte at the SP it moved to. -/
theorem Effect.mem (h : Effect s i t) :
    (i.mnemonic ≠ .push ∧ i.mnemonic ≠ .call ∧ t.mem = s.mem) ∨
      ((i.mnemonic = .push ∨ i.mnemonic = .call) ∧ ∃ v, t.mem = s.mem.write s.spForPush.sp.toNat v) := by
  cases h with
  | push r => exact .inr ⟨.inl rfl, _, by rw [State.advance_mem, storeAtSp_mem, State.spForPush_mem]⟩
  | call r hpc => exact .inr ⟨.inr rfl, _, by rw [State.jumpTo_mem, storeAtSp_mem, State.spForPush_mem]⟩
  | _ => exact .inl ⟨nofun, nofun, rfl⟩

theorem Effect.memKept (h : Effect s i t) (hpush : i.mnemonic ≠ .push) (hcall : i.mnemonic ≠ .call) : MemKept s t := by
  rcases h.mem with ⟨-, -, hm⟩ | ⟨hi, -⟩
  · intro a
    rw [State.memRead, hm]
    rfl
  · exact absurd hi (not_or.2 ⟨hpush, hcall⟩)

theorem Effect.memKeptBut (h : Effect s i t) : MemKeptBut s.spForPush.sp s t := by
  intro a ha
  rcases h.mem with ⟨-, -, hm⟩ | ⟨-, v, hm⟩
  · rw [State.memRead, hm]
    rfl
  · rw [State.memRead, hm, Memory.read_write, if_neg (fun h => ha (BitVec.eq_of_toNat_eq h))]
    rfl

/-- Of the effects only PRN's appends to `out`. -/
theorem Effect.out (h : Effect s i t) (hi : i.mnemonic ≠ .prn) : t.out = s.out := by
  cases h with
  | prn r => exact absurd rfl hi
  | push r => simp only [State.advance_out, storeAtSp_out, State.spForPush_out]
  | call r hpc => simp only [State.jumpTo_out, storeAtSp_out, State.spForPush_out]
  | _ => rfl

theorem Effect.hr_kept (h : Effect s i t) (hi : i.mnemonic ≠ .hlt) : t.hr = s.hr := by
  rcases h.hr with ⟨hr, -⟩ | ⟨-, rfl⟩
  · exact hr
  · exact absurd rfl hi

/-- An effect appends to `diag` only as a POP on an empty stack does. -/
theorem Effect.diag_cases (h : Effect s i t) :
    t.diag = s.diag ∨ (i.mnemonic = .pop ∧ t.diag = s.diag ++ [.stackUnderflow s.pc]) := by
  by_cases hi : i.mnemonic ≠ .pop ∨ (s.sp ≠ 0 ∧ s.sp ≠ stackTop)
  · exact .inl (h.diag hi)
  · cases h with
    | popEmpty r hempty => exact .inr ⟨rfl, rfl⟩
    | pop r h0 h1 => exact .inl rfl
    | _ => exact absurd (.inl nofun) hi

/-- Beside HLT, PRN, CMP and a POP on an empty stack no effect touches `FL`, `hr` or a stream. -/
theorem Effect.statusKept (h : Effect s i t) (hhlt : i.mnemonic ≠ .hlt) (hprn : i.mnemonic ≠ .prn)
    (hcmp : i.mnemonic ≠ .cmp) (hpop : i.mnemonic ≠ .pop ∨ (s.sp ≠ 0 ∧ s.sp ≠ stackTop)) : StatusKept s t :=
  ⟨h.fl hcmp, h.hr_kept hhlt, h.out hprn, h.diag hpop⟩

/-- A fatal error keeps every register, memory and `out`. -/
theorem TookFatal.frame {e : FatalError} (h : TookFatal e s t) (rs : List RegIdx) (a : Addr) :
    RegsKeptBut rs s t ∧ MemKept s t ∧ MemKeptBut a s t ∧ t.out = s.out := by
  obtain ⟨-, -, -, -, hout, hregs, hmem⟩ := h
  exact ⟨fun q _ => hregs q List.not_mem_nil, hmem, fun b _ => hmem b, hout⟩

/-- An instruction has its effect, or it took a fatal error. -/
theorem exec_effect_or_tookFatal (h : exec i s = .next t) : Effect s i t ∨ ∃ e, TookFatal e s t := by
  rcases exec_inv h with he | ⟨b, -, -, rfl⟩ | ⟨r, -, -, rfl⟩
  · exact .inl he
  · exact .inr ⟨_, State.tookFatal_raiseFatal _ s⟩
  · exact .inr ⟨_, State.tookFatal_raiseFatal _ s⟩

/-- Settles O41: an effect has the frames above, and a fatal error changes only `hr` and `diag`. -/
theorem instructionsChangeOnlyWhatTheirRulesName : Obligations.InstructionsChangeOnlyWhatTheirRulesName := by
  intro i s t h
  rcases exec_effect_or_tookFatal h with he | ⟨e, hf⟩
  · refine ⟨he.regs, he.memKept, fun _ => he.memKeptBut, he.out, ?_, ?_⟩
    · rcases he.hr with ⟨hr, -⟩ | ⟨hr, rfl⟩
      · exact .inl hr
      · exact .inr (.inl ⟨rfl, hr⟩)
    · rcases he.diag_cases with hd | hd
      · exact .inl hd
      · exact .inr (.inl hd)
  · obtain ⟨hregs, hmem, hmemBut, hout⟩ := hf.frame (registersWritten i) s.spForPush.sp
    exact ⟨hregs, fun _ _ => hmem, fun _ => hmemBut, fun _ => hout, .inr (.inr ⟨e, hf⟩), .inr (.inr ⟨e, hf⟩)⟩

/-! ## Where the uniform advance leaves `pc` -/

theorem State.advance_one_pc (s : State) : (s.advance 1).pc = s.pc + 2 := by
  rw [State.advance_pc]
  omega

theorem State.advance_two_pc (s : State) : (s.advance 2).pc = s.pc + 3 := by
  rw [State.advance_pc]
  omega

/-! ## PRN, HLT and CMP -/

/-- Settles O22: the effect of PRN and its frames. -/
theorem prnEmitsTheRegister : Obligations.PrnEmitsTheRegister := by
  intro r s
  have h := Effect.prn (s := s) r
  exact ⟨_, h.exec_eq, rfl, State.advance_one_pc _, h.regs, h.memKept nofun nofun, h.fl nofun, h.hr_kept nofun,
    h.diag (.inl nofun)⟩

/-- No step follows while `hr` is not `NONE` (R75). -/
theorem cycle_ne_next_of_terminal (h : Terminal s) (opc : OpcodeMap) (u : State) : cycle opc s ≠ .next u :=
  fun hu => h (cycle_cases hu).1

/-- Settles O23: the effect of HLT, after which the state is terminal (`cycle_ne_next_of_terminal`). -/
theorem hltEndsTheRun : Obligations.HltEndsTheRun := by
  intro s
  have h := Effect.hlt (s := s)
  refine ⟨_, h.exec_eq, rfl, ?_, h.regs, h.memKept nofun nofun, h.fl nofun, h.out nofun, h.diag (.inl nofun),
    cycle_ne_next_of_terminal nofun⟩
  rw [State.advance_pc]
  exact Int.add_zero _

/-- Settles O33: the effect of CMP, with the flag `compareFlags` picks in each of the three cases. -/
theorem cmpSetsExactlyTheFlagOfTheUnsignedOrder : Obligations.CmpSetsExactlyTheFlagOfTheUnsignedOrder := by
  intro ra rb s
  have h := Effect.cmp (s := s) ra rb
  refine ⟨_, h.exec_eq, fun heq => ?_, fun hlt => ?_, fun hgt => ?_, State.advance_two_pc _, h.regs,
    h.memKept nofun nofun, h.hr_kept nofun, h.out nofun, h.diag (.inl nofun)⟩
  all_goals rw [State.advance_fl, State.setFl_fl, compareFlags]
  · rw [if_pos (BitVec.eq_of_toNat_eq heq)]
    rfl
  · rw [if_neg (by rintro he; rw [he] at hlt; omega), if_pos hlt]
    rfl
  · rw [if_neg (by rintro he; rw [he] at hgt; omega), if_neg (by omega)]
    rfl

/-! ## The jumps -/

/-- Settles O34: the effect of JMP and its frames. -/
theorem jmpGoesToTheBaseLessTheOffsetPlusTwo : Obligations.JmpGoesToTheBaseLessTheOffsetPlusTwo := by
  intro off r s
  have h := Effect.jmp (s := s) off r
  exact ⟨_, h.exec_eq, rfl, h.regs, h.memKept nofun nofun, h.statusKept nofun nofun nofun (.inl nofun)⟩

/-- Settles O35: taken or not, by bit 0 of `FL`. -/
theorem jeqJumpsOnlyWhenTheEqualBitIsSet : Obligations.JeqJumpsOnlyWhenTheEqualBitIsSet := by
  intro off r s
  cases hbit : s.fl.getLsbD 0 with
  | true =>
    have h := Effect.jeqTaken off r hbit
    exact ⟨_, h.exec_eq, fun _ => rfl, nofun, h.regs, h.memKept nofun nofun,
      h.statusKept nofun nofun nofun (.inl nofun)⟩
  | false =>
    have h := Effect.jeqNot off r hbit
    exact ⟨_, h.exec_eq, nofun, fun _ => State.advance_two_pc s, h.regs,
      h.memKept nofun nofun, h.statusKept nofun nofun nofun (.inl nofun)⟩

/-- Settles O36: taken or not, by bit 0 of `FL`. -/
theorem jneJumpsOnlyWhenTheEqualBitIsClear : Obligations.JneJumpsOnlyWhenTheEqualBitIsClear := by
  intro off r s
  cases hbit : s.fl.getLsbD 0 with
  | false =>
    have h := Effect.jneTaken off r hbit
    exact ⟨_, h.exec_eq, fun _ => rfl, nofun, h.regs, h.memKept nofun nofun,
      h.statusKept nofun nofun nofun (.inl nofun)⟩
  | true =>
    have h := Effect.jneNot off r hbit
    exact ⟨_, h.exec_eq, nofun, fun _ => State.advance_two_pc s, h.regs,
      h.memKept nofun nofun, h.statusKept nofun nofun nofun (.inl nofun)⟩

/-! ## ADD and MUL (R88) -/

theorem aluAdd_comm (a b : Byte) : aluAdd a b = aluAdd b a := by
  rw [aluAdd, aluAdd, Nat.add_comm]

theorem aluMul_comm (a b : Byte) : aluMul a b = aluMul b a := by
  rw [aluMul, aluMul, Nat.mul_comm]

/-- Settles O26: the target holds the operation's result, and both operations are commutative. -/
theorem addAndMulAreCommutative : Obligations.AddAndMulAreCommutative := by
  intro ra rb s s' ha hb
  refine ⟨⟨_, _, exec_add s ra rb, exec_add s' ra rb, ?_⟩, ⟨_, _, exec_mul s ra rb, exec_mul s' ra rb, ?_⟩⟩
  · simp only [State.advance_reg, State.reg_setReg, if_true, ha, hb, aluAdd_comm]
  · simp only [State.advance_reg, State.reg_setReg, if_true, ha, hb, aluMul_comm]

/-! ## The stack and subroutines -/

/-- Settles O27: the effect of PUSH, which reads the register after SP moved (`State.spForPush_reg`). -/
theorem pushStoresBelowTheStackPointer : Obligations.PushStoresBelowTheStackPointer := by
  intro r s
  have h := Effect.push (s := s) r
  refine ⟨s.spForPush_sp, _, h.exec_eq, rfl, ?_, ?_, h.regs, h.memKeptBut, h.statusKept nofun nofun nofun (.inl nofun)⟩
  · rw [State.advance_memRead, storeAtSp_memRead, if_pos rfl, State.spForPush_reg, State.spForPush_sp]
  · rw [State.advance_one_pc, storeAtSp_pc, State.spForPush_pc]

/-- Settles O28: the effect of POP, whose increment comes after the load, so it moves a loaded register 7 too. -/
theorem popLoadsThenIncrementsTheStackPointer : Obligations.PopLoadsThenIncrementsTheStackPointer := by
  intro r s h0 h1
  have h := Effect.pop r h0 h1
  refine ⟨_, h.exec_eq, fun hr => ?_, ?_, State.advance_one_pc _, fun q hq => ?_, h.memKept nofun nofun,
    h.statusKept nofun nofun nofun (.inr ⟨h0, h1⟩)⟩
  · simp [hr]
  · simp only [State.advance_sp, State.spIncrement_sp, State.sp_setReg, eq_comm (a := spReg)]
    split <;> rfl
  · exact h.regs q (by simpa [registersWritten, or_comm] using hq)

/-- Settles O30: the effect of CALL, whose return address fits in a byte (`toNat_ofInt_returnAddress`). -/
theorem callPushesTheReturnAddressAndJumps : Obligations.CallPushesTheReturnAddressAndJumps := by
  intro r s h0 h253
  have h := Effect.call r h253
  refine ⟨s.spForPush_sp, _, h.exec_eq, rfl, ?_, ?_, h.regs, h.memKeptBut, h.statusKept nofun nofun nofun (.inl nofun)⟩
  · rw [State.jumpTo_memRead, storeAtSp_memRead, if_pos rfl, toNat_ofInt_returnAddress h0 h253]
  · rw [State.jumpTo_pc, State.spForPush_reg, State.spForPush_sp]

/-- Settles O31: the return address is 256 (`exec_call_high`). -/
theorem callAtAddress254Faults : Obligations.CallAtAddress254Faults := by
  intro r s hpc
  have h := exec_call_high s r (by omega)
  rw [hpc] at h
  exact ⟨_, h, State.tookFatal_raiseFatal _ s⟩

/-- Settles O32: the effect of RET and its frames. -/
theorem retPopsTheProgramCounter : Obligations.RetPopsTheProgramCounter := by
  intro s
  have h := Effect.ret (s := s)
  exact ⟨_, h.exec_eq, rfl, s.spIncrement_sp, h.regs, h.memKept nofun nofun, h.statusKept nofun nofun nofun (.inl nofun)⟩

/-- SP after PUSH is 0 or the sentinel, so that a POP finds the stack empty, exactly from 1 and 0xF5 (R94 a). -/
theorem spForPush_sp_empty_iff (s : State) :
    (s.spForPush.sp = 0x00 ∨ s.spForPush.sp = 0xF4) ↔ (s.sp = 0x01 ∨ s.sp = 0xF5) := by
  rw [State.spForPush_sp]
  split
  · next h0 => rw [h0]; decide
  · bv_omega

/-- Moving SP up undoes what PUSH did to it, except that from 0 it ends at the sentinel. -/
theorem spForPush_sp_add_one (s : State) : s.spForPush.sp + 1 = if s.sp = 0x00 then 0xF4 else s.sp := by
  rw [State.spForPush_sp]
  exact spForPush_value_add_one s.sp

/-- POP on a stack that is not empty, where the byte at SP is what PUSH left there for the register, SP itself for
register 7: SP moves up by one, and register 7 with it (R93 b, R94 a). -/
theorem exec_pop_of_pushed {r : RegIdx} {v : Byte} (hbyte : s.memRead s.sp = if r = spReg then s.sp else v)
    (hempty : ¬ (s.sp = 0x00 ∨ s.sp = 0xF4)) :
    ∃ t, exec (.pop r.toByte) s = .next t ∧ (r ≠ spReg → t.reg r = v) ∧ t.sp = s.sp + 1 ∧ t.diag = s.diag := by
  obtain ⟨h0, h1⟩ := not_or.1 hempty
  obtain ⟨t, hpop, hload, hsp, -, -, -, -, -, -, hdiag⟩ := popLoadsThenIncrementsTheStackPointer r s h0 h1
  refine ⟨t, hpop, fun hr => ?_, ?_, hdiag⟩
  · rw [hload hr, hbyte, if_neg hr]
  · rw [hsp, hbyte]
    split <;> rfl

/-- Settles O37: PUSH leaves SP at `s.spForPush.sp` (O27). From there POP finds an empty stack exactly where SP was 1 or
0xF5 (O29), and else takes back what PUSH stored (`exec_pop_of_pushed`). -/
theorem pushThenPopRestoresTheRegister : Obligations.PushThenPopRestoresTheRegister := by
  intro r s
  obtain ⟨hsp, u, hpush, husp, hbyte, hpc, -, -, -, -, -, hdiag⟩ := pushStoresBelowTheStackPointer r s
  have hempty := spForPush_sp_empty_iff s
  have hup := spForPush_sp_add_one s
  rw [← husp] at hsp hempty hup hbyte
  rw [execAll_cons_of_next hpush]
  by_cases hspecial : s.sp = 0x01 ∨ s.sp = 0xF5
  · obtain ⟨t, hpop, htdiag, -, htregs, -⟩ := popOnAnEmptyStackReportsAndIsSkipped.1 r u (hempty.2 hspecial)
    have hne : s.sp ≠ 0x00 := by rintro h0; rw [h0] at hspecial; revert hspecial; decide
    refine ⟨t, execAll_cons_of_next hpop [], fun h => absurd hspecial (not_or.2 h.2), fun h => absurd h hne,
      fun _ => ⟨?_, ?_⟩⟩
    · rw [State.sp_eq, htregs spReg List.not_mem_nil, ← State.sp_eq, hsp, if_neg hne]
    · rw [htdiag, hdiag, hpc]
  · obtain ⟨t, hpop, hreg, htsp, htdiag⟩ := exec_pop_of_pushed hbyte (fun h => hspecial (hempty.1 h))
    rw [hup] at htsp
    refine ⟨t, execAll_cons_of_next hpop [], fun h => ?_, fun h0 hr => ⟨hreg hr, ?_, htdiag.trans hdiag⟩,
      fun h => absurd h hspecial⟩
    · rw [if_neg h.1] at htsp
      refine ⟨?_, htsp, htdiag.trans hdiag⟩
      by_cases hr : r = spReg
      · rw [hr]
        exact htsp
      · exact hreg hr
    · rw [htsp, if_pos h0]

end Sys2Proof.Machine
end

section
/-! Which error a step reports (spec 30_encoding.md R70, 60_exceptions.md R115): the first register operand byte above 7
of an instruction, and the first error of the priority list of a step. -/

namespace Sys2Proof.Machine

variable {opc : OpcodeMap} {s t : State} {i : Instr} {m : Mnemonic} {b c : Byte}

/-! ## The first register operand byte above 7 (R70) -/

/-- The first byte of a list that names no register. -/
def firstBad (bs : List Byte) : Option Byte := bs.find? fun b => decide (7 < b.toNat)

theorem firstBad_cons (b : Byte) (bs : List Byte) :
    firstBad (b :: bs) = if 7 < b.toNat then some b else firstBad bs := by
  by_cases h : 7 < b.toNat <;> simp [firstBad, h]

theorem firstBad_singleton (h : firstBad [b] = some c) : b = c ∧ 7 < c.toNat := by
  have hc := List.find?_some h
  exact ⟨(List.mem_singleton.1 (List.mem_of_find?_eq_some h)).symm, of_decide_eq_true hc⟩

theorem withReg_of_firstBad (h : firstBad [b] = some c) (s : State) (rule : RegIdx → State) :
    withReg b s rule = s.raiseFatal (.outOfBoundsAddress .register c.toNat) := by
  obtain ⟨rfl, hb⟩ := firstBad_singleton h
  exact withReg_of_gt hb s rule

theorem withRegs_of_firstBad {a : Byte} (h : firstBad [a, b] = some c) (s : State) (rule : RegIdx → RegIdx → State) :
    withRegs a b s rule = s.raiseFatal (.outOfBoundsAddress .register c.toNat) := by
  by_cases ha : 7 < a.toNat
  · rw [firstBad_cons, if_pos ha] at h
    cases h
    exact withRegs_of_gt_fst ha b s rule
  · rw [firstBad_cons, if_neg ha] at h
    obtain ⟨ra, rfl⟩ := exists_reg_of_lt (Nat.lt_succ_of_le (not_lt.1 ha))
    rw [withRegs, withReg_toByte]
    exact withReg_of_firstBad h s (rule ra)

/-- An instruction raises REGISTER with its first register operand byte above 7. -/
theorem exec_of_firstBad (h : firstBad i.registerOperands = some b) (s : State) :
    exec i s = .next (s.raiseFatal (.outOfBoundsAddress .register b.toNat)) := by
  cases i with
  | hlt | ret => cases h
  | mul a b' => rw [exec, execMul, aluWriteBack, withRegs_of_firstBad h]
  | add a b' => rw [exec, execAdd, aluWriteBack, withRegs_of_firstBad h]
  | cmp a b' => rw [exec, execCmp, withRegs_of_firstBad h]
  | ldi b' v => rw [exec, execLdi, withReg_of_firstBad h]
  | prn b' => rw [exec, execPrn, withReg_of_firstBad h]
  | push b' => rw [exec, execPush, withReg_of_firstBad h]
  | pop b' => rw [exec, execPop, withReg_of_firstBad h]
  | call b' => rw [exec, execCall, withReg_of_firstBad h]
  | jmp off b' => rw [exec, execJmp, jumpIf, withReg_of_firstBad h]
  | jeq off b' => rw [exec, execJeq, jumpIf, withReg_of_firstBad h]
  | jne off b' => rw [exec, execJne, jumpIf, withReg_of_firstBad h]

/-- Where no register operand byte is above 7 the instruction is well formed. -/
theorem wellFormed_of_firstBad_eq_none (h : firstBad i.registerOperands = none) : i.wellFormed = true := by
  rw [firstBad, List.find?_eq_none] at h
  refine List.all_eq_true.2 fun b hb => decide_eq_true ?_
  have hb : ¬ 7 < b.toNat := by simpa using h b hb
  omega

/-- Settles O17, by `exec_of_firstBad`. -/
theorem registerOperandAboveSevenFaults : Obligations.RegisterOperandAboveSevenFaults :=
  fun _ s _ h => ⟨_, exec_of_firstBad h s, State.tookFatal_raiseFatal _ s⟩

/-! ## The priority list (R115) -/

/-- The register operand bytes of the instruction at `pc` are those the priority list checks. -/
theorem registerOperands_instrAtPc (m : Mnemonic) (s : State) :
    (instrAtPc m s).registerOperands = registerBytesAtPc m s := by
  cases m <;> rfl

/-- An effect of a running core reports no fatal error: `hr` is `NONE` or `HLT`, and no fatal event is new. -/
theorem Effect.no_fatal (h : Effect s i t) (hn : s.hr = .none) :
    (t.hr = .none ∨ t.hr = .hlt) ∧ t.diag.filter DiagEvent.isFatal = s.diag.filter DiagEvent.isFatal := by
  constructor
  · rcases h.hr with ⟨hr, -⟩ | ⟨hr, -⟩
    · exact .inl (hr.trans hn)
    · exact .inr hr
  · rcases h.diag_cases with hd | ⟨-, hd⟩
    · rw [hd]
    · rw [hd, List.filter_append]
      exact List.append_nil _

/-- The step of `s` is the one a priority list with this first error asks for: that error, or none. -/
def StepReports (opc : OpcodeMap) (s : State) : Option FatalError → Prop
  | some e => cycle opc s = .next (s.raiseFatal e)
  | none => ∃ t, cycle opc s = .next t ∧ (t.hr = .none ∨ t.hr = .hlt) ∧
      t.diag.filter DiagEvent.isFatal = s.diag.filter DiagEvent.isFatal

/-- Items 4 and 5 of the list, where the instruction lies inside memory: a register operand byte above 7, then the
return address of a CALL. -/
theorem stepReports_of_fetched {p : Addr} (hn : s.hr = .none) (hpc : s.pc = p.toNat)
    (hrow : recognise opc (s.memRead p) = some m) (hlast : s.pc + m.operandCount ≤ 255) :
    StepReports opc s (firstFatal opc s) := by
  have hexec : cycle opc s = exec (instrAtPc m s) s := cycle_of_ok hn (fetchInstr_of_operandsInside hpc hrow hlast)
  have hm : (instrAtPc m s).mnemonic = m := m.mnemonic_instr _ _
  simp only [firstFatal, addr?_eq_some.2 hpc, hrow]
  rw [if_neg (by omega), if_neg (by omega), ← registerOperands_instrAtPc]
  cases hbad : firstBad (instrAtPc m s).registerOperands with
  | some b =>
    rw [firstBad] at hbad
    simp only [hbad]
    exact hexec.trans (exec_of_firstBad hbad s)
  | none =>
    have hw := wellFormed_of_firstBad_eq_none hbad
    rw [firstBad] at hbad
    simp only [hbad]
    split
    · next hcall =>
      obtain ⟨rfl, hhigh⟩ := hcall
      obtain ⟨r, hr⟩ := exists_reg_of_lt (b := s.mem.read (s.pc + 1).toNat)
        (by simpa [instrAtPc, Mnemonic.instr, Instr.wellFormed, Instr.registerOperands] using hw)
      rw [StepReports, hexec, instrAtPc, Mnemonic.instr, hr]
      exact exec_call_high s r (by omega)
    · next hcall =>
      obtain ⟨t, ht⟩ := effect_of_wellFormed (s := s) hw fun hc =>
        not_lt.1 fun hhigh => hcall ⟨hm.symm.trans hc, by omega⟩
      exact ⟨t, hexec.trans ht.exec_eq, ht.no_fatal hn⟩

/-- The step is the one the priority list asks for. -/
theorem stepReports_firstFatal (hn : s.hr = .none) : StepReports opc s (firstFatal opc s) := by
  rcases fetch_cases opc s with hout | ⟨p, hpc, hrow⟩ | ⟨p, m, hpc, hrow, hlast⟩ | ⟨p, m, hpc, hrow, hlast⟩
  · simp only [firstFatal, addr?_eq_none.2 hout]
    exact cycle_of_pcOutside hn hout
  · simp only [firstFatal, addr?_eq_some.2 hpc, hrow]
    exact cycle_of_unknownOpcode hn hpc hrow
  · have hp := p.isLt
    have hle := m.operandCount_le
    have h := cycle_of_operandBeyondMemory hn hpc hrow hlast
    simp only [firstFatal, addr?_eq_some.2 hpc, hrow]
    by_cases h1 : 255 < s.pc + 1
    · rw [if_pos ⟨by omega, h1⟩, show s.pc + 1 = 256 by omega]
      exact h
    · rw [if_neg (fun hc => h1 hc.2), if_pos ⟨by omega, by omega⟩, show s.pc + 2 = 256 by omega]
      exact h
  · exact stepReports_of_fetched hn hpc hrow hlast

/-- Settles O19, by `stepReports_firstFatal`. -/
theorem stepFaultsExactlyAsThePriorityListSays : Obligations.StepFaultsExactlyAsThePriorityListSays := by
  intro opc _ s hn
  have h : StepReports opc s (firstFatal opc s) := stepReports_firstFatal hn
  refine ⟨fun e he => ?_, fun he => ?_⟩
  · rw [he] at h
    exact ⟨_, h, State.tookFatal_raiseFatal e s⟩
  · rw [he] at h
    exact h

end Sys2Proof.Machine
end

section
/-! Runs (spec 40_instruction_cycle.md R74 to R76, 60_exceptions.md R120): every running core has a next state, a run
ends in one terminal state, and the two streams only grow and are never read. -/

namespace Sys2Proof.Machine

variable {opc : OpcodeMap} {s t : State} {i : Instr}

/-! ## Steps and terminal states -/

/-- Every arm of `exec` answers a next state. -/
theorem exists_exec_eq_next (i : Instr) (s : State) : ∃ t, exec i s = .next t := by
  cases i <;> exact ⟨_, rfl⟩

/-- A running core has a next state: that of the instruction it fetched, or of the fatal error of the fetch. -/
theorem exists_cycle_eq_next (hn : s.hr = .none) : ∃ t, cycle opc s = .next t := by
  cases hf : fetchInstr opc s with
  | ok i =>
    obtain ⟨t, ht⟩ := exists_exec_eq_next i s
    exact ⟨t, (cycle_of_ok hn hf).trans ht⟩
  | error e => exact ⟨_, cycle_of_error hn hf⟩

/-- Settles O4, from `exists_exec_eq_next` and `exists_cycle_eq_next`. -/
theorem everyInstructionAndEveryRunningStepAnswers : Obligations.EveryInstructionAndEveryRunningStepAnswers :=
  ⟨exists_exec_eq_next, fun _ _ hn => exists_cycle_eq_next hn⟩

theorem cycle_of_terminal (h : Terminal s) : cycle opc s = .fault (.halted s.hr) := by
  unfold cycle
  split
  · next hn => exact absurd hn h
  · rfl

theorem runFor_of_terminal (h : Terminal s) (k : Nat) : runFor opc k s = s := by
  cases k with
  | zero => rfl
  | succ k => rw [runFor, cycle_of_terminal h]

theorem runFor_succ_of_next (h : cycle opc s = .next t) (k : Nat) : runFor opc (k + 1) s = runFor opc k t := by
  rw [runFor, h]

/-- Settles O3: the cycle asks for `hr` `NONE` first (`cycle_of_terminal`), so a run stops at once. -/
theorem haltedCoreHasNoStep : Obligations.HaltedCoreHasNoStep :=
  fun opc _ h => ⟨cycle_ne_next_of_terminal h opc, cycle_of_terminal h, runFor_of_terminal h⟩

theorem steps_runFor (opc : OpcodeMap) (k : Nat) (s : State) : Steps opc s (runFor opc k s) := by
  induction k generalizing s with
  | zero => exact .refl s
  | succ k ih =>
    by_cases hn : s.hr = .none
    · obtain ⟨t, ht⟩ := exists_cycle_eq_next (opc := opc) hn
      rw [runFor_succ_of_next ht]
      exact .head ht (ih t)
    · rw [runFor_of_terminal hn]
      exact .refl s

/-- A run that is let take as many steps as lead to a terminal state ends there. -/
theorem Steps.exists_runFor_eq (h : Steps opc s t) (ht : Terminal t) : ∃ n, ∀ k, n ≤ k → runFor opc k s = t := by
  induction h with
  | refl s => exact ⟨0, fun k _ => runFor_of_terminal ht k⟩
  | head hc _ ih =>
    obtain ⟨n, hn⟩ := ih ht
    refine ⟨n + 1, fun k hk => ?_⟩
    obtain ⟨k, rfl⟩ := Nat.exists_eq_add_of_lt (Nat.lt_of_succ_le hk)
    rw [runFor_succ_of_next hc]
    exact hn _ (Nat.le_add_right n k)

/-- Settles O5, from `steps_runFor` and `Steps.exists_runFor_eq`. -/
theorem runsEndInOneTerminalState : Obligations.RunsEndInOneTerminalState :=
  fun opc s => ⟨fun k => steps_runFor opc k s, fun _ => Steps.exists_runFor_eq⟩

/-! ## The streams (R24, R25) -/

/-- The state with these contents on the two streams. -/
def State.withStreams (o : List Byte) (d : List DiagEvent) (s : State) : State := { s with out := o, diag := d }

theorem fetchInstr_withStreams (o : List Byte) (d : List DiagEvent) :
    fetchInstr opc (s.withStreams o d) = fetchInstr opc s := rfl

theorem spForPush_withStreams (o : List Byte) (d : List DiagEvent) (s : State) :
    (s.withStreams o d).spForPush = s.spForPush.withStreams o d := by
  unfold State.spForPush State.spInitIfZero
  rw [show (s.withStreams o d).sp = s.sp from rfl]
  split <;> rfl

/-- From `s` to `t` bytes and events are appended to the streams, and with any other contents `o` and `d` on them the
transition `Does` still leads from the one to the other and appends the same. -/
def AppendsOnly (Does : State → State → Prop) (s t : State) : Prop :=
  ∃ newOut newDiag, t.out = s.out ++ newOut ∧ t.diag = s.diag ++ newDiag ∧
    ∀ o d, Does (s.withStreams o d) (t.withStreams (o ++ newOut) (d ++ newDiag))

/-- A transition that leaves the streams appends nothing. -/
theorem AppendsOnly.of_kept {Does : State → State → Prop} (ho : t.out = s.out) (hd : t.diag = s.diag)
    (h : ∀ o d, Does (s.withStreams o d) (t.withStreams o d)) : AppendsOnly Does s t :=
  ⟨[], [], by rw [ho, List.append_nil], by rw [hd, List.append_nil], fun o d => by
    rw [List.append_nil, List.append_nil]
    exact h o d⟩

theorem AppendsOnly.mono {Does Does' : State → State → Prop} (h : AppendsOnly Does s t)
    (himp : ∀ o d u, Does (s.withStreams o d) u → Does' (s.withStreams o d) u) : AppendsOnly Does' s t := by
  obtain ⟨newOut, newDiag, ho, hd, hdoes⟩ := h
  exact ⟨newOut, newDiag, ho, hd, fun o d => himp o d _ (hdoes o d)⟩

theorem appendsOnly_raiseFatal (e : FatalError) (s : State) :
    AppendsOnly (fun u v => v = u.raiseFatal e) s (s.raiseFatal e) :=
  ⟨[], [e.event s.pc], (List.append_nil _).symm, rfl, fun o d => by
    rw [List.append_nil]
    rfl⟩

/-- Of the effects PRN's appends a byte, that of a POP on an empty stack an event, and no other anything. -/
theorem Effect.appendsOnly (h : Effect s i t) : AppendsOnly (fun u v => Effect u i v) s t := by
  cases h with
  | prn r =>
    refine ⟨[s.reg r], [], rfl, (List.append_nil _).symm, fun o d => ?_⟩
    rw [List.append_nil]
    exact .prn r
  | popEmpty r h =>
    refine ⟨[], [.stackUnderflow s.pc], (List.append_nil _).symm, rfl, fun o d => ?_⟩
    rw [List.append_nil]
    exact .popEmpty r h
  | push r =>
    refine .of_kept s.spForPush_out s.spForPush_diag fun o d => ?_
    have h := Effect.push (s := s.withStreams o d) r
    rw [spForPush_withStreams] at h
    exact h
  | call r hpc =>
    refine .of_kept s.spForPush_out s.spForPush_diag fun o d => ?_
    have h := Effect.call (s := s.withStreams o d) r hpc
    rw [spForPush_withStreams] at h
    exact h
  | ldi r v => exact .of_kept rfl rfl fun _ _ => .ldi r v
  | hlt => exact .of_kept rfl rfl fun _ _ => .hlt
  | mul ra rb => exact .of_kept rfl rfl fun _ _ => .mul ra rb
  | add ra rb => exact .of_kept rfl rfl fun _ _ => .add ra rb
  | pop r h0 h1 => exact .of_kept rfl rfl fun _ _ => .pop r h0 h1
  | ret => exact .of_kept rfl rfl fun _ _ => .ret
  | cmp ra rb => exact .of_kept rfl rfl fun _ _ => .cmp ra rb
  | jmp off r => exact .of_kept rfl rfl fun _ _ => .jmp off r
  | jeqTaken off r h => exact .of_kept rfl rfl fun _ _ => .jeqTaken off r h
  | jeqNot off r h => exact .of_kept rfl rfl fun _ _ => .jeqNot off r h
  | jneTaken off r h => exact .of_kept rfl rfl fun _ _ => .jneTaken off r h
  | jneNot off r h => exact .of_kept rfl rfl fun _ _ => .jneNot off r h

/-- An instruction without an effect has a register operand above 7, or is a CALL too high in memory. -/
theorem no_effect_cases (h : ¬ ∃ t, Effect s i t) :
    ¬ i.wellFormed = true ∨ ∃ r : RegIdx, i = .call r.toByte ∧ 253 < s.pc := by
  by_cases hw : i.wellFormed = true
  · obtain ⟨hcall, hpc⟩ := Classical.not_imp.1 fun hc => h (effect_of_wellFormed hw hc)
    cases i <;> cases hcall
    next b =>
      obtain ⟨r, rfl⟩ := exists_reg_of_lt (b := b) (by simpa [Instr.wellFormed, Instr.registerOperands] using hw)
      exact .inr ⟨r, rfl, not_le.1 hpc⟩
  · exact .inl hw

/-- An instruction without an effect raises one fatal error in every state with that `pc`: the register operands and
the return address are all its checks look at. -/
theorem exec_of_no_effect (h : ¬ ∃ t, Effect s i t) :
    ∃ e : FatalError, ∀ u : State, u.pc = s.pc → exec i u = .next (u.raiseFatal e) := by
  rcases no_effect_cases h with hw | ⟨r, rfl, hpc⟩
  · obtain ⟨b, -, -, he⟩ := exec_of_not_wellFormed hw
    exact ⟨_, fun u _ => he u⟩
  · exact ⟨.outOfBoundsAddress .returnAddress (s.pc + 2), fun u hu => hu ▸ exec_call_high u r (hu ▸ hpc)⟩

theorem exec_appendsOnly (h : exec i s = .next t) : AppendsOnly (fun u v => exec i u = .next v) s t := by
  by_cases hno : ∃ t, Effect s i t
  · obtain ⟨t', he⟩ := hno
    cases he.exec_eq.symm.trans h
    exact he.appendsOnly.mono fun _ _ _ => Effect.exec_eq
  · obtain ⟨e, he⟩ := exec_of_no_effect hno
    cases (he s rfl).symm.trans h
    refine (appendsOnly_raiseFatal e s).mono fun o d u hu => ?_
    rw [hu]
    exact he _ rfl

/-- A step, whether of an instruction or of a fetch that failed, only appends to the streams and never reads them. -/
theorem cycle_appendsOnly (h : cycle opc s = .next t) : AppendsOnly (fun u v => cycle opc u = .next v) s t := by
  have hn := (cycle_cases h).1
  cases hf : fetchInstr opc s with
  | ok i =>
    refine (exec_appendsOnly ((cycle_of_ok hn hf).symm.trans h)).mono fun o d u hu => ?_
    exact (cycle_of_ok (s := s.withStreams o d) hn ((fetchInstr_withStreams o d).trans hf)).trans hu
  | error e =>
    cases (cycle_of_error hn hf).symm.trans h
    refine (appendsOnly_raiseFatal e s).mono fun o d u hu => ?_
    rw [hu]
    exact cycle_of_error hn ((fetchInstr_withStreams o d).trans hf)

/-- Settles O42, by `cycle_appendsOnly`. -/
theorem streamsOnlyGrowAndAreNeverRead : Obligations.StreamsOnlyGrowAndAreNeverRead :=
  fun _ _ _ => cycle_appendsOnly

/-- Along a run the streams keep what they held. -/
theorem Steps.streams_kept (h : Steps opc s t) : s.out <+: t.out ∧ s.diag <+: t.diag := by
  induction h with
  | refl s => exact ⟨⟨[], List.append_nil _⟩, [], List.append_nil _⟩
  | head hc _ ih =>
    obtain ⟨newOut, newDiag, ho, hd, -⟩ := cycle_appendsOnly hc
    exact ⟨.trans ⟨newOut, ho.symm⟩ ih.1, .trans ⟨newDiag, hd.symm⟩ ih.2⟩

theorem Steps.eq_of_terminal (h : Steps opc s t) (hs : Terminal s) : t = s := by
  cases h with
  | refl => rfl
  | head hc _ => exact absurd hc (cycle_ne_next_of_terminal hs opc _)

/-- Settles O43, from `Steps.streams_kept` and `Steps.eq_of_terminal`. -/
theorem reportedErrorsAndHaltsAreSticky : Obligations.ReportedErrorsAndHaltsAreSticky := by
  intro opc s t h
  obtain ⟨hout, hdiag⟩ := h.streams_kept
  exact ⟨hout, hdiag, h.eq_of_terminal⟩

end Sys2Proof.Machine
end

section
/-! Canonical memories (spec 10_state.md section 4), and the accesses of a step by class and in order (20_memory.md R35,
R40, R41; D19): one lemma for each thing a fetch can meet, and one for each instruction's data access. -/

namespace Sys2Proof.Machine

variable {opc : OpcodeMap} {s t : State} {i : Instr} {p : Addr} {m : Mnemonic}

/-! ## Canonical memories -/

theorem Memory.mem_of_read_ne {mem : Memory} {a : Nat} (h : mem.read a ≠ Memory.unlisted) : (a, mem.read a) ∈ mem := by
  induction mem with
  | nil => exact absurd rfl h
  | cons c mem ih =>
    obtain ⟨b, w⟩ := c
    rw [Memory.read] at h ⊢
    split at h
    · next hab => rw [if_pos hab, hab]; exact List.mem_cons_self
    · next hab => rw [if_neg hab]; exact List.mem_cons_of_mem _ (ih h)

theorem Memory.read_of_mem {mem : Memory} (hp : mem.Pairwise fun c d => c.1 < d.1) {c : Host.Cell} (hc : c ∈ mem) :
    mem.read c.1 = c.2 := by
  induction mem with
  | nil => cases hc
  | cons d mem ih =>
    obtain ⟨hlow, hp⟩ := List.pairwise_cons.1 hp
    rw [Memory.read]
    rcases List.mem_cons.1 hc with rfl | hc
    · exact if_pos rfl
    · rw [if_neg (hlow c hc).ne']
      exact ih hp hc

/-- A canonical memory lists exactly the addresses that do not read as an unlisted one does, with the byte read. -/
theorem Memory.mem_iff {mem : Memory} (hw : mem.wf = true) (c : Host.Cell) :
    c ∈ mem ↔ c.1 < 256 ∧ c.2 ≠ Memory.unlisted ∧ mem.read c.1 = c.2 := by
  obtain ⟨hp, hcells⟩ := (Memory.wf_iff mem).1 hw
  constructor
  · intro hc
    exact ⟨(hcells c hc).1, (hcells c hc).2, Memory.read_of_mem hp hc⟩
  · rintro ⟨-, hne, hread⟩
    rw [← hread] at hne
    have hc := Memory.mem_of_read_ne hne
    rwa [hread] at hc

/-- Settles O44: two canonical memories that read alike list the same cells (`Memory.mem_iff`), and both by rising
address. -/
theorem memoriesThatReadAlikeAreEqual : Obligations.MemoriesThatReadAlikeAreEqual := by
  intro m n hm hn h
  have hread : ∀ a, a < 256 → m.read a = n.read a := by
    intro a ha
    have ha : (BitVec.ofNat 8 a).toNat = a := by rw [BitVec.toNat_ofNat]; omega
    exact ha ▸ h (BitVec.ofNat 8 a)
  have hmem : ∀ c, c ∈ m ↔ c ∈ n := by
    intro c
    rw [Memory.mem_iff hm, Memory.mem_iff hn]
    exact and_congr_right fun hc => by rw [hread _ hc]
  have hpm := ((Memory.wf_iff m).1 hm).1
  have hpn := ((Memory.wf_iff n).1 hn).1
  have hnodup : ∀ k : Memory, k.Pairwise (fun c d => c.1 < d.1) → k.Nodup := fun k hk =>
    hk.imp fun hlt he => (he ▸ hlt).false
  exact ((List.perm_ext_iff_of_nodup (hnodup m hpm) (hnodup n hpn)).2 hmem).eq_of_pairwise
    (fun c d _ _ hcd hdc => absurd hcd hdc.not_gt) hpm hpn

/-! ## The fetch accesses (R66, R69) -/

theorem fetchAccesses_of_pcOutside (h : s.pc < 0 ∨ 255 < s.pc) : fetchAccesses opc s = [] := by
  simp only [fetchAccesses, addr?_eq_none.2 h]

theorem fetchAccesses_of_unrecognised (hpc : s.pc = p.toNat) (hrow : recognise opc (s.memRead p) = none) :
    fetchAccesses opc s = [⟨.ifetch, p⟩] := by
  simp only [fetchAccesses, addr?_eq_some.2 hpc, hrow]

theorem fetchAccesses_of_recognised (hpc : s.pc = p.toNat) (hrow : recognise opc (s.memRead p) = some m) :
    fetchAccesses opc s = ⟨.ifetch, p⟩ :: operandAccesses m.operandCount (s.pc + 1) := by
  simp only [fetchAccesses, addr?_eq_some.2 hpc, hrow]

/-- The OFETCH of the operand byte `k` places behind the first one. -/
def ofetchBehind (p : Addr) (k : Nat) : Access := ⟨.ofetch, p + BitVec.ofNat 8 (k + 1)⟩

/-- The OFETCHes behind an opcode byte at `p`, as many as there are operands and addresses. -/
theorem operandAccesses_behind (hpc : s.pc = p.toNat) (n : Nat) :
    operandAccesses n (s.pc + 1) = (List.range (min n (255 - p.toNat))).map (ofetchBehind p) := by
  have hp := p.isLt
  rw [show s.pc + 1 = ((p.toNat + 1 : Nat) : Int) by omega, operandAccesses_eq,
    show 256 - (p.toNat + 1) = 255 - p.toNat by omega]
  refine List.map_congr_left fun k _ => congrArg (Access.mk .ofetch) (BitVec.eq_of_toNat_eq ?_)
  simp only [BitVec.toNat_add, BitVec.toNat_ofNat]
  omega

/-- Every fetch is an IFETCH at `pc`, where that is an address, then at most two OFETCHes behind it, below address
256. -/
theorem fetchAccesses_shape (hpc : s.pc = p.toNat) :
    ∃ n, n ≤ 2 ∧ n ≤ 255 - p.toNat ∧ fetchAccesses opc s = ⟨.ifetch, p⟩ :: (List.range n).map (ofetchBehind p) := by
  cases hrow : recognise opc (s.memRead p) with
  | none => exact ⟨0, by omega, by omega, fetchAccesses_of_unrecognised hpc hrow⟩
  | some m =>
    have hle := m.operandCount_le
    refine ⟨min m.operandCount (255 - p.toNat), by omega, by omega, ?_⟩
    rw [fetchAccesses_of_recognised hpc hrow, operandAccesses_behind hpc]

/-- At an address the first access is the IFETCH there. -/
theorem ifetch_mem_fetchAccesses (hpc : s.pc = p.toNat) : ⟨.ifetch, p⟩ ∈ fetchAccesses opc s := by
  obtain ⟨n, -, -, h⟩ := fetchAccesses_shape (opc := opc) hpc
  rw [h]
  exact List.mem_cons_self

/-- The classes and addresses of a fetch's accesses, one by one. -/
theorem fetchAccesses_in_order (opc : OpcodeMap) (s : State) :
    (fetchAccesses opc s).length ≤ 3 ∧ ∀ k (h : k < (fetchAccesses opc s).length),
      (fetchAccesses opc s)[k].cls = (if k = 0 then .ifetch else .ofetch) ∧
        ((fetchAccesses opc s)[k].addr.toNat : Int) = s.pc + k := by
  cases hp : addr? s.pc with
  | none => simp [fetchAccesses_of_pcOutside (addr?_eq_none.1 hp)]
  | some p =>
    have hpc := addr?_eq_some.1 hp
    obtain ⟨n, hn2, hntop, h⟩ := fetchAccesses_shape (opc := opc) hpc
    simp only [h, List.length_cons, List.length_map, List.length_range]
    refine ⟨by omega, fun k hk => ?_⟩
    cases k with
    | zero => exact ⟨rfl, by simp [hpc]⟩
    | succ k =>
      have hp := p.isLt
      simp only [List.getElem_cons_succ, List.getElem_map, List.getElem_range, ofetchBehind, BitVec.toNat_add,
        BitVec.toNat_ofNat]
      exact ⟨rfl, by omega⟩

theorem fetchAccesses_isWrite : ∀ ac ∈ fetchAccesses opc s, ac.cls.isWrite = false := by
  intro ac hac
  obtain ⟨k, hk, rfl⟩ := List.getElem_of_mem hac
  rw [((fetchAccesses_in_order opc s).2 k hk).1]
  split <;> rfl

/-! ## The data access (R35, R40) -/

theorem dataAccesses_of_ok (h : fetchInstr opc s = .ok i) : dataAccesses opc s = dataAccess i s := by
  rw [dataAccesses, h]

/-- Where no instruction is fetched, none makes a data access. -/
theorem dataAccesses_eq_nil (h : ∀ i, fetchInstr opc s ≠ .ok i) : dataAccesses opc s = [] := by
  cases hf : fetchInstr opc s with
  | ok i => exact absurd hf (h i)
  | error e => rw [dataAccesses, hf]

theorem dataAccesses_of_pcOutside (h : s.pc < 0 ∨ 255 < s.pc) : dataAccesses opc s = [] :=
  dataAccesses_eq_nil fun i hi => by
    have := pc_range_of_fetchInstr hi
    omega

/-- A fetched instruction is of the row its opcode byte is recognised as. -/
theorem recognise_of_fetchInstr (h : fetchInstr opc s = .ok i) (hpc : s.pc = p.toNat) :
    recognise opc (s.memRead p) = some i.mnemonic := by
  obtain ⟨q, hq, hrow, -⟩ := fetchInstr_eq_ok_iff.1 h
  obtain rfl : p = q := BitVec.eq_of_toNat_eq (by omega)
  exact hrow

theorem dataAccesses_of_unrecognised (hpc : s.pc = p.toNat) (hrow : recognise opc (s.memRead p) = none) :
    dataAccesses opc s = [] :=
  dataAccesses_eq_nil fun _ hi => nomatch hrow.symm.trans (recognise_of_fetchInstr hi hpc)

theorem dataAccesses_of_operandBeyondMemory (hpc : s.pc = p.toNat) (hrow : recognise opc (s.memRead p) = some m)
    (hlast : 255 < s.pc + m.operandCount) : dataAccesses opc s = [] :=
  dataAccesses_eq_nil fun i hi => by
    have hm := Option.some_inj.1 (hrow.symm.trans (recognise_of_fetchInstr hi hpc))
    have := pc_range_of_fetchInstr hi
    rw [← hm] at this
    omega

theorem dataAccess_of_not_wellFormed (h : ¬ i.wellFormed = true) (s : State) : dataAccess i s = [] := by
  unfold dataAccess
  exact if_neg h

theorem dataAccess_push (r : RegIdx) (s : State) : dataAccess (.push r.toByte) s = [⟨.dwrite, s.spForPush.sp⟩] := by
  rw [dataAccess, if_pos (by revert r; decide)]

theorem dataAccess_call (r : RegIdx) (h : s.pc ≤ 253) :
    dataAccess (.call r.toByte) s = [⟨.dwrite, s.spForPush.sp⟩] := by
  rw [dataAccess, if_pos (by revert r; decide)]
  exact if_neg (by rw [returnAddress]; omega)

theorem dataAccess_call_high (r : RegIdx) (h : 253 < s.pc) : dataAccess (.call r.toByte) s = [] := by
  rw [dataAccess, if_pos (by revert r; decide)]
  exact if_pos (by rw [returnAddress]; omega)

theorem dataAccess_pop (r : RegIdx) (s : State) :
    dataAccess (.pop r.toByte) s = if s.sp = 0 ∨ s.sp = stackTop then [] else [⟨.dread, s.sp⟩] := by
  rw [dataAccess, if_pos (by revert r; decide)]
  exact if_congr (stackEmpty_iff s) rfl rfl

/-- Beside PUSH, CALL, POP and RET no instruction makes a data access. -/
theorem dataAccess_of_other (hi : i.mnemonic ∉ [.push, .call, .pop, .ret]) (s : State) : dataAccess i s = [] := by
  cases i with
  | push b | call b | pop b | ret => exact absurd (by simp [Instr.mnemonic]) hi
  | _ => exact ite_self _

theorem dataAccess_of_no_effect (h : ¬ ∃ t, Effect s i t) : dataAccess i s = [] := by
  rcases no_effect_cases h with hw | ⟨r, rfl, hpc⟩
  · exact dataAccess_of_not_wellFormed hw s
  · exact dataAccess_call_high r hpc

/-! ## The accesses of a step, in order (R41) -/

/-- An instruction makes at most one data access, of class DREAD or DWRITE. -/
theorem dataAccess_nil_or_singleton (i : Instr) (s : State) :
    dataAccess i s = [] ∨ ∃ ac : Access, dataAccess i s = [ac] ∧ (ac.cls = .dread ∨ ac.cls = .dwrite) := by
  unfold dataAccess
  split
  · cases i with
    | push b => exact .inr ⟨_, rfl, .inr rfl⟩
    | pop b =>
      by_cases h : stackEmpty s = true
      · exact .inl (if_pos h)
      · exact .inr ⟨_, if_neg h, .inl rfl⟩
    | call b =>
      by_cases h : returnAddress s > 255
      · exact .inl (if_pos h)
      · exact .inr ⟨_, if_neg h, .inr rfl⟩
    | ret => exact .inr ⟨_, rfl, .inl rfl⟩
    | _ => exact .inl rfl
  · exact .inl rfl

theorem dataAccesses_length_and_class (opc : OpcodeMap) (s : State) :
    (dataAccesses opc s).length ≤ 1 ∧ ∀ ac ∈ dataAccesses opc s, ac.cls = .dread ∨ ac.cls = .dwrite := by
  cases hf : fetchInstr opc s with
  | error e =>
    rw [dataAccesses_eq_nil fun i hi => nomatch hf.symm.trans hi]
    exact ⟨Nat.zero_le 1, List.forall_mem_nil _⟩
  | ok i =>
    rw [dataAccesses_of_ok hf]
    rcases dataAccess_nil_or_singleton i s with h | ⟨ac, h, hcls⟩
    · rw [h]
      exact ⟨Nat.zero_le 1, List.forall_mem_nil _⟩
    · rw [h]
      exact ⟨Nat.le_refl 1, List.forall_mem_singleton.2 hcls⟩

/-- The step of an instruction that stands at `pc` makes the IFETCH, an OFETCH for each operand, and the instruction's
data access. -/
theorem stepAccesses_of_bytesAt (hv : opc.Valid) (hn : s.hr = .none) (hpc : s.pc = p.toNat)
    (hb : BytesAt (encodeWith opc i) s.pc s) :
    fetchInstr opc s = .ok i ∧ stepAccesses opc s =
      ⟨.ifetch, p⟩ :: (List.range i.mnemonic.operandCount).map (ofetchBehind p) ++ dataAccess i s := by
  obtain ⟨⟨q, hq, hop⟩, hops⟩ := hb
  obtain rfl : p = q := BitVec.eq_of_toNat_eq (by have := addr?_eq_some.1 hq; omega)
  have hrow : recognise opc (s.memRead p) = some i.mnemonic := hop ▸ recognise_byte hv i.mnemonic
  have hf : fetchInstr opc s = .ok i := fetchInstr_eq_ok_iff.2 ⟨p, hpc, hrow, hops⟩
  have hin := pc_range_of_fetchInstr hf
  refine ⟨hf, ?_⟩
  rw [stepAccesses_running hn, fetchAccesses_of_recognised hpc hrow, operandAccesses_behind hpc,
    Nat.min_eq_left (by omega), dataAccesses_of_ok hf]

/-- Under every map: the fetches, one by one, then at most one data access. -/
theorem stepAccesses_in_order (opc : OpcodeMap) (s : State) :
    ∃ fetches data, stepAccesses opc s = fetches ++ data ∧
      data.length ≤ 1 ∧ (∀ ac ∈ data, ac.cls = .dread ∨ ac.cls = .dwrite) ∧
      fetches.length ≤ 3 ∧
      ∀ k (h : k < fetches.length),
        fetches[k].cls = (if k = 0 then .ifetch else .ofetch) ∧ (fetches[k].addr.toNat : Int) = s.pc + k := by
  by_cases hn : s.hr = .none
  · obtain ⟨hlen, hcls⟩ := dataAccesses_length_and_class opc s
    exact ⟨_, _, stepAccesses_running hn, hlen, hcls, fetchAccesses_in_order opc s⟩
  · exact ⟨[], [], stepAccesses_halted hn, Nat.zero_le 1, List.forall_mem_nil _, Nat.zero_le 3, nofun⟩

theorem stepAccesses_of_pcOutside (h : s.pc < 0 ∨ 255 < s.pc) : stepAccesses opc s = [] := by
  by_cases hn : s.hr = .none
  · rw [stepAccesses_running hn, fetchAccesses_of_pcOutside h, dataAccesses_of_pcOutside h, List.append_nil]
  · exact stepAccesses_halted hn

theorem stepAccesses_of_unrecognised (hn : s.hr = .none) (hpc : s.pc = p.toNat)
    (hrow : recognise opc (s.memRead p) = none) : stepAccesses opc s = [⟨.ifetch, p⟩] := by
  rw [stepAccesses_running hn, fetchAccesses_of_unrecognised hpc hrow, dataAccesses_of_unrecognised hpc hrow,
    List.append_nil]

theorem stepAccesses_of_operandBeyondMemory (hn : s.hr = .none) (hpc : s.pc = p.toNat)
    (hrow : recognise opc (s.memRead p) = some m) (hlast : 255 < s.pc + m.operandCount) :
    stepAccesses opc s = ⟨.ifetch, p⟩ :: (List.range (255 - p.toNat)).map (ofetchBehind p) := by
  rw [stepAccesses_running hn, fetchAccesses_of_recognised hpc hrow, operandAccesses_behind hpc,
    dataAccesses_of_operandBeyondMemory hpc hrow hlast, List.append_nil, Nat.min_eq_right (by omega)]

/-- Settles O45: under every map the order (`stepAccesses_in_order`); under a valid one the accesses of each thing a fetch
can meet, and for an instruction that stands at `pc` its data access (`dataAccess_push` and those beside it). -/
theorem accessesOfAStepComeInOrder : Obligations.AccessesOfAStepComeInOrder := by
  refine ⟨stepAccesses_in_order, fun opc s h => h.elim stepAccesses_halted stepAccesses_of_pcOutside,
    fun opc hv s p hn hpc => ⟨fun hop => stepAccesses_of_unrecognised hn hpc (recognise_eq_none.2 hop),
      fun m hop hlast => stepAccesses_of_operandBeyondMemory hn hpc (hop ▸ recognise_byte hv m) hlast, fun i hb => ?_⟩⟩
  obtain ⟨hf, hacc⟩ := stepAccesses_of_bytesAt hv hn hpc hb
  have hin := pc_range_of_fetchInstr hf
  refine ⟨dataAccess i s, hacc, fun hw => dataAccess_of_not_wellFormed (by simp [hw]) s, ?_, ?_, ?_, ?_,
    fun hi => dataAccess_of_other hi s⟩
  · rintro r rfl
    rw [dataAccess_push, State.spForPush_sp]
    rfl
  · rintro r rfl
    have hhigh : s.pc ≤ 254 := by
      have : s.pc + 1 ≤ 255 := hin.2
      omega
    split
    · exact dataAccess_call_high r (by omega)
    · rw [dataAccess_call r (by omega), State.spForPush_sp]
      rfl
  · rintro r rfl
    exact dataAccess_pop r s
  · rintro rfl
    rfl

end Sys2Proof.Machine
end

section
/-! A step stores only where its write access says, and depends on memory only where its read accesses say (spec
20_memory.md R31, R41, R42; D19). -/

namespace Sys2Proof.Machine

variable {opc : OpcodeMap} {s t : State} {i : Instr} {p : Addr} {m : Mnemonic} {n : Memory}

/-! ## What a step stores -/

/-- The data access of an effect: PUSH and CALL write at the SP they move to, and every other one is a read at SP. -/
theorem Effect.dataAccess_cases (h : Effect s i t) :
    ((i.mnemonic = .push ∨ i.mnemonic = .call) ∧ dataAccess i s = [⟨.dwrite, s.spForPush.sp⟩]) ∨
      (i.mnemonic ≠ .push ∧ i.mnemonic ≠ .call ∧ ∀ ac ∈ dataAccess i s, ac = ⟨.dread, s.sp⟩) := by
  cases h with
  | push r => exact .inl ⟨.inl rfl, dataAccess_push r s⟩
  | call r hpc => exact .inl ⟨.inr rfl, dataAccess_call r hpc⟩
  | popEmpty r h => exact .inr ⟨nofun, nofun, (dataAccess_pop r s).trans (if_pos h) ▸ List.forall_mem_nil _⟩
  | pop r h0 h1 =>
    have hd := (dataAccess_pop r s).trans (if_neg (not_or.2 ⟨h0, h1⟩))
    exact .inr ⟨nofun, nofun, hd ▸ List.forall_mem_singleton.2 rfl⟩
  | ret => exact .inr ⟨nofun, nofun, List.forall_mem_singleton.2 rfl⟩
  | _ =>
    refine .inr ⟨nofun, nofun, ?_⟩
    rw [dataAccess_of_other (by simp [Instr.mnemonic])]
    exact List.forall_mem_nil _

/-- A step has the effect of the instruction it fetched, or it took a fatal error. -/
theorem cycle_effect_or_tookFatal (h : cycle opc s = .next t) :
    (∃ i, fetchInstr opc s = .ok i ∧ Effect s i t) ∨ ∃ e, TookFatal e s t := by
  obtain ⟨-, ⟨i, rest, hd, he⟩ | ⟨e, -, rfl⟩⟩ := cycle_cases h
  · exact (exec_effect_or_tookFatal he).imp (fun h => ⟨i, fetchInstr_ok hd, h⟩) id
  · exact .inr ⟨_, State.tookFatal_raiseFatal _ s⟩

/-- A running core that fetched an instruction makes its data access. -/
theorem mem_stepAccesses_of_dataAccess (hn : s.hr = .none) (hf : fetchInstr opc s = .ok i) {ac : Access}
    (h : ac ∈ dataAccess i s) : ac ∈ stepAccesses opc s := by
  rw [stepAccesses_running hn, dataAccesses_of_ok hf]
  exact List.mem_append_right _ h

/-- Settles O46: PUSH and CALL change only the byte their DWRITE names, and no other step changes memory. -/
theorem stepStoresOnlyAtItsWriteAccess : Obligations.StepStoresOnlyAtItsWriteAccess := by
  intro opc s t h a ha
  rcases cycle_effect_or_tookFatal h with ⟨i, hf, he⟩ | ⟨e, hfatal⟩
  · rcases he.dataAccess_cases with ⟨-, hd⟩ | ⟨hpush, hcall, -⟩
    · have hac := mem_stepAccesses_of_dataAccess (cycle_cases h).1 hf (hd ▸ List.mem_singleton_self _)
      exact he.memKeptBut a (ha _ hac rfl).symm
    · exact he.memKept hpush hcall a
  · obtain ⟨-, hmem, -, -⟩ := hfatal.frame [] a
    exact hmem a

/-! ## Another memory -/

/-- The state with another memory. -/
def State.withMem (n : Memory) (s : State) : State := { s with mem := n }

theorem State.mem_withMem (n : Memory) (s : State) : (s.withMem n).mem = n := rfl

theorem State.memRead_withMem_sp (n : Memory) (s : State) : (s.withMem n).memRead (s.withMem n).sp = n.read s.sp.toNat := rfl

theorem spForPush_withMem (n : Memory) (s : State) : (s.withMem n).spForPush = s.spForPush.withMem n := by
  unfold State.spForPush State.spInitIfZero
  rw [show (s.withMem n).sp = s.sp from rfl]
  split <;> rfl

/-- In a memory `n` that agrees where the data access of an instruction reads, its effect is the same but for memory,
which holds what `n` held and the byte PUSH or CALL stores. -/
theorem Effect.withMem (h : Effect s i t) {n : Memory}
    (hread : ∀ ac ∈ dataAccess i s, ac.cls.isWrite = false → n.read ac.addr.toNat = s.memRead ac.addr) :
    (∃ v, (i.mnemonic = .push ∨ i.mnemonic = .call) ∧ t.mem = s.mem.write s.spForPush.sp.toNat v ∧
        Effect (s.withMem n) i (t.withMem (n.write s.spForPush.sp.toNat v))) ∨
      (i.mnemonic ≠ .push ∧ i.mnemonic ≠ .call ∧ t.mem = s.mem ∧ Effect (s.withMem n) i (t.withMem n)) := by
  cases h with
  | push r =>
    have h := Effect.push (s := s.withMem n) r
    rw [spForPush_withMem] at h
    exact .inl ⟨_, .inl rfl, congrArg (Memory.write · _ _) s.spForPush_mem, h⟩
  | call r hpc =>
    have h := Effect.call (s := s.withMem n) r hpc
    rw [spForPush_withMem] at h
    exact .inl ⟨_, .inr rfl, congrArg (Memory.write · _ _) s.spForPush_mem, h⟩
  | pop r h0 h1 =>
    have hd := (dataAccess_pop r s).trans (if_neg (not_or.2 ⟨h0, h1⟩))
    have hbyte : n.read s.sp.toNat = s.memRead s.sp := hread ⟨.dread, s.sp⟩ (hd ▸ List.mem_singleton_self _) rfl
    have h := Effect.pop (s := s.withMem n) r h0 h1
    rw [State.memRead_withMem_sp, hbyte] at h
    exact .inr ⟨nofun, nofun, rfl, h⟩
  | ret =>
    have hbyte : n.read s.sp.toNat = s.memRead s.sp := hread ⟨.dread, s.sp⟩ (List.mem_singleton_self _) rfl
    have h := Effect.ret (s := s.withMem n)
    rw [State.memRead_withMem_sp, hbyte] at h
    exact .inr ⟨nofun, nofun, rfl, h⟩
  | ldi r v => exact .inr ⟨nofun, nofun, rfl, .ldi r v⟩
  | prn r => exact .inr ⟨nofun, nofun, rfl, .prn r⟩
  | hlt => exact .inr ⟨nofun, nofun, rfl, .hlt⟩
  | mul ra rb => exact .inr ⟨nofun, nofun, rfl, .mul ra rb⟩
  | add ra rb => exact .inr ⟨nofun, nofun, rfl, .add ra rb⟩
  | popEmpty r h => exact .inr ⟨nofun, nofun, rfl, .popEmpty r h⟩
  | cmp ra rb => exact .inr ⟨nofun, nofun, rfl, .cmp ra rb⟩
  | jmp off r => exact .inr ⟨nofun, nofun, rfl, .jmp off r⟩
  | jeqTaken off r h => exact .inr ⟨nofun, nofun, rfl, .jeqTaken off r h⟩
  | jeqNot off r h => exact .inr ⟨nofun, nofun, rfl, .jeqNot off r h⟩
  | jneTaken off r h => exact .inr ⟨nofun, nofun, rfl, .jneTaken off r h⟩
  | jneNot off r h => exact .inr ⟨nofun, nofun, rfl, .jneNot off r h⟩

/-! ## What a fetch reads -/

/-- The fetch accesses depend on memory only through the opcode byte. -/
theorem fetchAccesses_withMem (hop : ∀ p : Addr, s.pc = p.toNat → n.read p.toNat = s.memRead p) :
    fetchAccesses opc (s.withMem n) = fetchAccesses opc s := by
  cases hp : addr? s.pc with
  | none =>
    have hout := addr?_eq_none.1 hp
    rw [fetchAccesses_of_pcOutside hout, fetchAccesses_of_pcOutside (s := s.withMem n) hout]
  | some p =>
    have hbyte : (s.withMem n).memRead p = s.memRead p := hop p (addr?_eq_some.1 hp)
    have hp' : addr? (s.withMem n).pc = some p := hp
    simp only [fetchAccesses, hp, hp', hbyte]
    rfl

/-- Bytes stand in any other memory that agrees where their OFETCHes read. -/
theorem bytesAt_withMem {bs : List Byte} {a : Int} (h : BytesAt bs a s)
    (hread : ∀ ac ∈ operandAccesses bs.length a, n.read ac.addr.toNat = s.memRead ac.addr) :
    BytesAt bs a (s.withMem n) := by
  induction bs generalizing a with
  | nil => exact trivial
  | cons v vs ih =>
    obtain ⟨⟨q, hq, hv⟩, hvs⟩ := h
    simp only [List.length_cons, operandAccesses, hq, List.forall_mem_cons] at hread
    exact ⟨⟨q, hq, hread.1.trans hv⟩, ih hvs hread.2⟩

/-- An instruction is fetched from any other memory that agrees where its fetch accesses read. -/
theorem fetchInstr_withMem (hf : fetchInstr opc s = .ok i)
    (hread : ∀ ac ∈ fetchAccesses opc s, n.read ac.addr.toNat = s.memRead ac.addr) :
    fetchInstr opc (s.withMem n) = .ok i := by
  obtain ⟨p, hpc, hrow, hops⟩ := fetchInstr_eq_ok_iff.1 hf
  rw [fetchAccesses_of_recognised hpc hrow, List.forall_mem_cons, ← i.length_operands] at hread
  have hop : (s.withMem n).memRead p = s.memRead p := hread.1
  exact fetchInstr_eq_ok_iff.2 ⟨p, hpc, (congrArg _ hop).trans hrow, bytesAt_withMem hops hread.2⟩

/-! ## What a step reads -/

/-- The step of `s` in the memory `n` makes the same accesses as the step of `s` and does the same, each byte it does
not write being left as `n` holds it. -/
def StepsAlike (opc : OpcodeMap) (s : State) (n : Memory) : Prop :=
  ∃ t t', cycle opc s = .next t ∧ cycle opc (s.withMem n) = .next t' ∧
    stepAccesses opc (s.withMem n) = stepAccesses opc s ∧
    t'.x = t.x ∧ t'.pc = t.pc ∧ t'.fl = t.fl ∧ t'.hr = t.hr ∧ t'.out = t.out ∧ t'.diag = t.diag ∧
    (∀ ac ∈ stepAccesses opc s, ac.cls = .dwrite → t'.memRead ac.addr = t.memRead ac.addr) ∧
    (∀ a : Addr, (∀ ac ∈ stepAccesses opc s, ac.cls = .dwrite → ac.addr ≠ a) → t'.memRead a = n.read a.toNat)

theorem stepAccesses_withMem (hn : s.hr = .none) (hop : ∀ p : Addr, s.pc = p.toNat → n.read p.toNat = s.memRead p)
    (hd : dataAccesses opc (s.withMem n) = dataAccesses opc s) :
    stepAccesses opc (s.withMem n) = stepAccesses opc s := by
  rw [stepAccesses_running hn, stepAccesses_running (s := s.withMem n) hn, fetchAccesses_withMem hop, hd]

/-- A DWRITE is no fetch access, so it is a data access. -/
theorem mem_dataAccesses_of_dwrite (hn : s.hr = .none) {ac : Access} (h : ac ∈ stepAccesses opc s)
    (hw : ac.cls = .dwrite) : ac ∈ dataAccesses opc s := by
  rw [stepAccesses_running hn] at h
  refine (List.mem_append.1 h).resolve_left fun hfetch => ?_
  have := fetchAccesses_isWrite ac hfetch
  rw [hw] at this
  cases this

/-- Two steps that take the same fatal error and make no data access are alike. -/
theorem stepsAlike_of_raiseFatal {e : FatalError} (hn : s.hr = .none)
    (hop : ∀ p : Addr, s.pc = p.toNat → n.read p.toNat = s.memRead p)
    (hd : dataAccesses opc s = []) (hd' : dataAccesses opc (s.withMem n) = [])
    (h : cycle opc s = .next (s.raiseFatal e))
    (h' : cycle opc (s.withMem n) = .next ((s.withMem n).raiseFatal e)) : StepsAlike opc s n := by
  refine ⟨_, _, h, h', stepAccesses_withMem hn hop (hd'.trans hd.symm), rfl, rfl, rfl, rfl, rfl, rfl,
    fun ac hac hw => ?_, fun _ _ => rfl⟩
  have hac := mem_dataAccesses_of_dwrite hn hac hw
  rw [hd] at hac
  cases hac

/-- Which data access an instruction makes does not depend on memory. -/
theorem dataAccess_withMem (i : Instr) (n : Memory) (s : State) : dataAccess i (s.withMem n) = dataAccess i s := by
  unfold dataAccess
  rw [spForPush_withMem]
  rfl

theorem memRead_of_mem_eq_write {a : Addr} {v : Byte} (h : t.mem = n.write a.toNat v) (b : Addr) :
    t.memRead b = if b = a then v else n.read b.toNat := by
  simp [State.memRead, h, BitVec.toNat_inj]

/-- The step of a fetched instruction is alike in another memory that agrees where it reads. -/
theorem stepsAlike_of_fetched (hn : s.hr = .none) (hf : fetchInstr opc s = .ok i)
    (hop : ∀ p : Addr, s.pc = p.toNat → n.read p.toNat = s.memRead p)
    (hf' : fetchInstr opc (s.withMem n) = .ok i)
    (hread : ∀ ac ∈ dataAccess i s, ac.cls.isWrite = false → n.read ac.addr.toNat = s.memRead ac.addr) :
    StepsAlike opc s n := by
  have hc : cycle opc s = exec i s := cycle_of_ok hn hf
  have hc' : cycle opc (s.withMem n) = exec i (s.withMem n) := cycle_of_ok (s := s.withMem n) hn hf'
  have hd : dataAccesses opc s = dataAccess i s := dataAccesses_of_ok hf
  have hd' : dataAccesses opc (s.withMem n) = dataAccess i s :=
    (dataAccesses_of_ok hf').trans (dataAccess_withMem i n s)
  have hacc := stepAccesses_withMem hn hop (hd'.trans hd.symm)
  have hdwrite : ∀ ac ∈ stepAccesses opc s, ac.cls = .dwrite → ac ∈ dataAccess i s := fun ac hac hw =>
    hd ▸ mem_dataAccesses_of_dwrite hn hac hw
  by_cases hno : ∃ t, Effect s i t
  · obtain ⟨t, he⟩ := hno
    rcases he.withMem hread with ⟨v, hst, hmem, he'⟩ | ⟨hpush, hcall, hmem, he'⟩
    · obtain ⟨-, hda⟩ := he.dataAccess_cases.resolve_right fun ⟨hpush, hcall, _⟩ => hst.elim hpush hcall
      have hmem' := State.mem_withMem (n.write s.spForPush.sp.toNat v) t
      refine ⟨t, _, hc.trans he.exec_eq, hc'.trans he'.exec_eq, hacc, rfl, rfl, rfl, rfl, rfl, rfl,
        fun ac hac hw => ?_, fun a ha => ?_⟩
      · obtain rfl := List.mem_singleton.1 (hda ▸ hdwrite ac hac hw)
        rw [memRead_of_mem_eq_write hmem, memRead_of_mem_eq_write hmem', if_pos rfl, if_pos rfl]
      · have hac := mem_stepAccesses_of_dataAccess hn hf (hda ▸ List.mem_singleton_self _)
        rw [memRead_of_mem_eq_write hmem', if_neg (ha _ hac rfl).symm]
    · obtain ⟨-, -, hda⟩ := he.dataAccess_cases.resolve_left fun ⟨hst, _⟩ => hst.elim hpush hcall
      refine ⟨t, _, hc.trans he.exec_eq, hc'.trans he'.exec_eq, hacc, rfl, rfl, rfl, rfl, rfl, rfl,
        fun ac hac hw => ?_, fun _ _ => rfl⟩
      rw [hda ac (hdwrite ac hac hw)] at hw
      cases hw
  · obtain ⟨e, he⟩ := exec_of_no_effect hno
    have hnil := dataAccess_of_no_effect hno
    exact stepsAlike_of_raiseFatal hn hop (hd.trans hnil) (hd'.trans hnil) (hc.trans (he s rfl))
      (hc'.trans (he (s.withMem n) rfl))

/-- Settles O47: in the other memory the fetch meets the same, so the step takes the same error
(`stepsAlike_of_raiseFatal`) or runs the same instruction (`stepsAlike_of_fetched`). -/
theorem stepReadsOnlyWhatItsAccessesName : Obligations.StepReadsOnlyWhatItsAccessesName := by
  intro opc s n hn hread
  show StepsAlike opc s n
  rw [stepAccesses_running hn] at hread
  have hfetch : ∀ ac ∈ fetchAccesses opc s, n.read ac.addr.toNat = s.memRead ac.addr := fun ac hac =>
    hread ac (List.mem_append_left _ hac) (fetchAccesses_isWrite ac hac)
  have hop : ∀ p : Addr, s.pc = p.toNat → n.read p.toNat = s.memRead p := fun p hpc =>
    hfetch _ (ifetch_mem_fetchAccesses hpc)
  rcases fetch_cases opc s with hout | ⟨p, hpc, hrow⟩ | ⟨p, m, hpc, hrow, hlast⟩ | ⟨p, m, hpc, hrow, hlast⟩
  · exact stepsAlike_of_raiseFatal hn hop (dataAccesses_of_pcOutside hout)
      (dataAccesses_of_pcOutside (s := s.withMem n) hout) (cycle_of_pcOutside hn hout)
      (cycle_of_pcOutside (s := s.withMem n) hn hout)
  · have hbyte : (s.withMem n).memRead p = s.memRead p := hop p hpc
    have hrow' : recognise opc ((s.withMem n).memRead p) = none := hbyte ▸ hrow
    have h' := cycle_of_unknownOpcode (s := s.withMem n) hn hpc hrow'
    rw [hbyte] at h'
    exact stepsAlike_of_raiseFatal hn hop (dataAccesses_of_unrecognised hpc hrow)
      (dataAccesses_of_unrecognised (s := s.withMem n) hpc hrow') (cycle_of_unknownOpcode hn hpc hrow) h'
  · have hbyte : (s.withMem n).memRead p = s.memRead p := hop p hpc
    have hrow' : recognise opc ((s.withMem n).memRead p) = some m := hbyte ▸ hrow
    exact stepsAlike_of_raiseFatal hn hop (dataAccesses_of_operandBeyondMemory hpc hrow hlast)
      (dataAccesses_of_operandBeyondMemory (s := s.withMem n) hpc hrow' hlast)
      (cycle_of_operandBeyondMemory hn hpc hrow hlast)
      (cycle_of_operandBeyondMemory (s := s.withMem n) hn hpc hrow' hlast)
  · have hf := fetchInstr_of_operandsInside hpc hrow hlast
    refine stepsAlike_of_fetched hn hf hop (fetchInstr_withMem hf hfetch) fun ac hac => hread ac ?_
    rw [dataAccesses_of_ok hf]
    exact List.mem_append_right _ hac

end Sys2Proof.Machine
end

section
/-! The invariant of the core (spec 10_state.md sections 2 to 6, 60_exceptions.md R112) and that of a session in each phase
(70_reset_and_hazards.md): they hold after reset, and every step and every accepted event keeps them. -/

namespace Sys2Proof.Machine

variable {opc : OpcodeMap} {s t : State} {i : Instr} {m : Mnemonic} {c d : Session}

/-! ## An effect keeps the invariant -/

theorem Effect.memCanonical (h : Effect s i t) (hw : s.mem.wf = true) : t.mem.wf = true := by
  rcases h.mem with ⟨-, -, hm⟩ | ⟨-, v, hm⟩
  · rwa [hm]
  · rw [hm]
    exact Memory.wf_write hw s.spForPush.sp.isLt v

/-- CMP writes one of three values to `FL`. -/
theorem compareFlags_legal (a b : Byte) :
    compareFlags a b = flEqual ∨ compareFlags a b = flGreater ∨ compareFlags a b = flLess := by
  unfold compareFlags
  split
  · exact .inl rfl
  · split
    · exact .inr (.inr rfl)
    · exact .inr (.inl rfl)

theorem Effect.fl_cases (h : Effect s i t) :
    t.fl = s.fl ∨ t.fl = flEqual ∨ t.fl = flGreater ∨ t.fl = flLess := by
  by_cases hi : i.mnemonic = .cmp
  · cases h with
    | cmp ra rb => exact .inr (compareFlags_legal _ _)
    | _ => cases hi
  · exact .inl (h.fl hi)

/-- A jump target lies in the range R14 derives, and so does the byte CALL or RET puts in `pc`. -/
theorem nextPc?_range {target : Int} (h : nextPc? i s = some target) : -253 ≤ target ∧ target ≤ 257 := by
  have hbyte : ∀ b : Byte, -253 ≤ (b.toNat : Int) ∧ (b.toNat : Int) ≤ 257 := fun b => by
    have := b.isLt
    omega
  have hjump : ∀ a b : Byte, -253 ≤ jumpTarget a b ∧ jumpTarget a b ≤ 257 := fun a b => by
    have := a.isLt
    have := b.isLt
    rw [jumpTarget]
    omega
  cases i with
  | call b =>
    obtain ⟨r, -, rfl⟩ := Option.map_eq_some_iff.1 h
    exact hbyte _
  | ret =>
    cases h
    exact hbyte _
  | jmp off b =>
    obtain ⟨r, -, rfl⟩ := Option.map_eq_some_iff.1 h
    exact hjump _ _
  | jeq off b =>
    rw [nextPc?] at h
    split at h
    · obtain ⟨r, -, rfl⟩ := Option.map_eq_some_iff.1 h
      exact hjump _ _
    · cases h
  | jne off b =>
    rw [nextPc?] at h
    split at h
    · cases h
    · obtain ⟨r, -, rfl⟩ := Option.map_eq_some_iff.1 h
      exact hjump _ _
  | _ => cases h

/-- From an instruction inside memory an effect leaves `pc` in the range R14 derives. -/
theorem Effect.pcRange (h : Effect s i t) (h0 : 0 ≤ s.pc) (hlast : s.pc + i.mnemonic.operandCount ≤ 255) :
    -253 ≤ t.pc ∧ t.pc ≤ 257 := by
  rw [h.pc]
  cases hnext : nextPc? i s with
  | some target => exact nextPc?_range hnext
  | none =>
    rw [Option.getD_none]
    omega

theorem coreInv_of_effect (hi : CoreInv s) (hn : s.hr = .none) (h : Effect s i t) (h0 : 0 ≤ s.pc)
    (hlast : s.pc + i.mnemonic.operandCount ≤ 255) : CoreInv t := by
  obtain ⟨hhr, hdiag⟩ := h.no_fatal hn
  refine ⟨h.memCanonical hi.memCanonical, ?_, h.pcRange h0 hlast, ?_, ?_⟩
  · rcases h.fl_cases with hfl | hfl
    · exact hfl ▸ hi.flLegal
    · exact .inr hfl
  · rcases hhr with hr | hr
    all_goals
      rw [hr]
      exact trivial
  · rw [hdiag, hi.diagAgrees, hn]
    rcases hhr with hr | hr
    · rw [hr]
    · rw [hr]
      rfl

/-! ## A fatal error keeps the invariant -/

/-- Taking a fatal error of the kind and range R112 lists keeps the invariant. -/
theorem coreInv_raiseFatal {e : FatalError} (hi : CoreInv s) (hn : s.hr = .none)
    (he : (e.haltReason s.pc).Sound s.pc) : CoreInv (s.raiseFatal e) where
  memCanonical := hi.memCanonical
  flLegal := hi.flLegal
  pcRange := hi.pcRange
  haltSound := he
  diagAgrees := by
    rw [State.raiseFatal_diag, State.raiseFatal_hr, List.filter_append, hi.diagAgrees, hn,
      FatalError.fatalEvents_haltReason]
    exact List.filter_cons_of_pos (FatalError.isFatal_event e s.pc)

/-- An instruction with a register operand has an operand byte. -/
theorem operandCount_pos_of_registerOperand {b : Byte} (h : b ∈ i.registerOperands) : 1 ≤ i.mnemonic.operandCount := by
  cases i with
  | hlt | ret => cases h
  | _ => simp [Instr.mnemonic, Mnemonic.operandCount]

theorem coreInv_of_exec (hi : CoreInv s) (hn : s.hr = .none) (h : exec i s = .next t) (h0 : 0 ≤ s.pc)
    (hlast : s.pc + i.mnemonic.operandCount ≤ 255) : CoreInv t := by
  rcases exec_inv h with he | ⟨b, hb, hgt, rfl⟩ | ⟨r, rfl, hhigh, rfl⟩
  · exact coreInv_of_effect hi hn he h0 hlast
  · have hpos := operandCount_pos_of_registerOperand hb
    have hlt := b.isLt
    exact coreInv_raiseFatal hi hn ⟨rfl, h0, by omega, by omega, by omega⟩
  · have hlast : s.pc + 1 ≤ 255 := hlast
    exact coreInv_raiseFatal hi hn ⟨rfl, by omega, by omega⟩

/-- Every step keeps the invariant, whatever its fetch meets. -/
theorem coreInv_of_cycle (hi : CoreInv s) (h : cycle opc s = .next t) : CoreInv t := by
  have hn := (cycle_cases h).1
  rcases fetch_cases opc s with hout | ⟨p, hpc, hrow⟩ | ⟨p, m, hpc, hrow, hlast⟩ | ⟨p, m, hpc, hrow, hlast⟩
  · cases (cycle_of_pcOutside hn hout).symm.trans h
    exact coreInv_raiseFatal hi hn ⟨rfl, rfl, hout⟩
  · cases (cycle_of_unknownOpcode hn hpc hrow).symm.trans h
    have := p.isLt
    exact coreInv_raiseFatal hi hn ⟨rfl, by omega, by omega⟩
  · cases (cycle_of_operandBeyondMemory hn hpc hrow hlast).symm.trans h
    have := p.isLt
    have := m.operandCount_le
    exact coreInv_raiseFatal hi hn ⟨rfl, by omega, rfl⟩
  · have hf := fetchInstr_of_operandsInside hpc hrow hlast
    obtain ⟨h0, hlast⟩ := pc_range_of_fetchInstr hf
    exact coreInv_of_exec hi hn ((cycle_of_ok hn hf).symm.trans h) h0 hlast

/-- Settles O49, by `coreInv_of_cycle`. -/
theorem everyStepKeepsTheInvariant : Obligations.EveryStepKeepsTheInvariant :=
  ⟨fun _ _ => coreInv_of_cycle, fun _ _ _ => coreInv_of_cycle⟩

/-! ## Reset and load -/

/-- The state reset leaves, with any canonical memory, meets the invariant. -/
theorem coreInv_reset_withMem {mem : Memory} (hw : mem.wf = true) : CoreInv (State.reset.withMem mem) where
  memCanonical := hw
  flLegal := .inl rfl
  pcRange := (by decide : (-253 : Int) ≤ 0 ∧ (0 : Int) ≤ 257)
  haltSound := trivial
  diagAgrees := rfl

/-- Settles O48: the empty memory is canonical. -/
theorem invariantHoldsAtReset : Obligations.InvariantHoldsAtReset := coreInv_reset_withMem Memory.wf_nil

/-- Settles O1: the fields of `State.reset`, one by one. -/
theorem resetLeavesEveryFieldAsStated : Obligations.ResetLeavesEveryFieldAsStated :=
  fun _ => ⟨rfl, State.reset_reg, rfl, rfl, fun _ => rfl, rfl, rfl, rfl, rfl, rfl, rfl, rfl⟩

/-- A load changes memory and nothing else. -/
theorem storeBytes_eq_withMem (bs : List Byte) (a : Int) (s : State) :
    s.storeBytes bs a = s.withMem (s.storeBytes bs a).mem := by
  obtain ⟨hx, hpc, hfl, hhr, hout, hdiag⟩ := storeBytes_frame bs a s
  rw [State.withMem, ← hx, ← hpc, ← hfl, ← hhr, ← hout, ← hdiag]

/-- What memory holds after bytes were stored from address `n` on, all of them inside memory. -/
theorem memRead_storeBytes {bs : List Byte} {n : Nat} (h : n + bs.length ≤ 256) (s : State) (a : Addr) :
    (s.storeBytes bs n).memRead a =
      if a.toNat < n then s.memRead a else (bs[a.toNat - n]?).getD (s.memRead a) := by
  induction bs generalizing n s with
  | nil => exact (ite_self _).symm
  | cons v vs ih =>
    rw [List.length_cons] at h
    obtain ⟨p, hp, -⟩ := exists_addr_memRead_eq (a := n) (by omega) (by omega) s
    have hpn : p.toNat = n := by have := addr?_eq_some.1 hp; omega
    have hstore : s.storeBytes (v :: vs) n = (s.memWrite p v).storeBytes vs ((n + 1 : Nat) : Int) := by
      simp only [State.storeBytes, hp]
      rfl
    rw [hstore, ih (by omega), State.memRead_memWrite]
    rcases lt_trichotomy a.toNat n with hlt | heq | hgt
    · have hne : a ≠ p := by rintro rfl; omega
      rw [if_pos (Nat.lt_succ_of_lt hlt), if_neg hne, if_pos hlt]
    · obtain rfl : a = p := BitVec.eq_of_toNat_eq (by omega)
      rw [if_pos (Nat.lt_succ_of_le heq.le), if_pos rfl, if_neg heq.not_lt, heq, Nat.sub_self]
      rfl
    · have hne : a ≠ p := by rintro rfl; omega
      rw [if_neg (not_lt.2 hgt), if_neg hne, if_neg hgt.not_gt, show a.toNat - n = a.toNat - (n + 1) + 1 by omega]
      rfl

/-- What memory holds after an image of at most 256 bytes was placed from address 0 on: the image's byte, or, above it,
what was there. -/
theorem memRead_storeBytes_zero {image : List Byte} (h : image.length ≤ 256) (s : State) (a : Addr) :
    (s.storeBytes image 0).memRead a = (image[a.toNat]?).getD (s.memRead a) :=
  memRead_storeBytes (n := 0) (by omega) s a

theorem load_of_ready {image : List Byte} (h : image.length ≤ 256) (s : State) :
    Session.load image ⟨s, .ready⟩ = .next ⟨s.storeBytes image 0, .loaded⟩ := if_pos h

theorem load_of_long {image : List Byte} (h : 256 < image.length) (s : State) :
    Session.load image ⟨s, .ready⟩ = .fault .loadError := if_neg (not_le.2 h)

/-- An accepted load was one of at most 256 bytes after a reset (R132, R133). -/
theorem load_eq_next {image : List Byte} (h : c.load image = .next d) :
    c.phase = .ready ∧ image.length ≤ 256 ∧ d = ⟨c.core.storeBytes image 0, .loaded⟩ := by
  rcases session_cases (opc := opcDefault) (e := .load image) h with
    ⟨he, -⟩ | ⟨image', he, hp, hl, hd⟩ | ⟨he, -⟩ | ⟨he, -⟩ | ⟨he, -⟩
  all_goals cases he
  exact ⟨hp, hl, hd⟩

/-- Settles O2: where the bytes of an accepted image lie (`memRead_storeBytes_zero`), and that a load changes only
memory (`storeBytes_frame`). -/
theorem loadPlacesTheImageFromAddressZero : Obligations.LoadPlacesTheImageFromAddressZero := by
  refine ⟨fun image hl => ?_, fun image hl => load_of_long hl _, fun image c hp => load_refused hp image⟩
  obtain ⟨hx, hpc, hfl, hhr, hout, hdiag⟩ := storeBytes_frame image 0 State.reset
  refine ⟨_, load_of_ready hl _, fun k hk => ?_, fun k hk hk256 => ?_, hpc, fun q _ => ?_, hfl, hhr, hout, hdiag⟩
  · rw [memRead_storeBytes_zero hl, BitVec.toNat_ofNat, Nat.mod_eq_of_lt (by omega), List.getElem?_eq_getElem hk]
    rfl
  · rw [memRead_storeBytes_zero hl, BitVec.toNat_ofNat, Nat.mod_eq_of_lt (by omega), List.getElem?_eq_none hk]
    rfl
  · rw [State.reg, hx]
    rfl

/-! ## The accesses of a load (R40, R133) -/

theorem loadAccesses_of_next {image : List Byte} (h : c.load image = .next d) :
    loadAccesses image c = (List.range image.length).map fun k => ⟨.load, BitVec.ofNat 8 k⟩ := by
  rw [loadAccesses, h]

theorem loadAccesses_of_rejected {image : List Byte} (h : c.phase ≠ .ready ∨ 256 < image.length) :
    loadAccesses image c = [] := by
  unfold loadAccesses
  split
  · next d hd =>
    obtain ⟨hp, hl, -⟩ := load_eq_next hd
    exact absurd hl (not_le.2 (h.resolve_left fun hne => hne hp))
  all_goals rfl

/-- Settles O54: an address no access names lies above the image, and there a load changes nothing
(`memRead_storeBytes_zero`). -/
theorem loadAccessesAreThoseOfAnAcceptedLoad : Obligations.LoadAccessesAreThoseOfAnAcceptedLoad := by
  refine ⟨fun image c d h => ?_, fun image c => loadAccesses_of_rejected⟩
  obtain ⟨-, hl, rfl⟩ := load_eq_next h
  simp only [loadAccesses_of_next h, List.length_map, List.length_range, List.getElem_map, List.getElem_range,
    List.forall_mem_map, List.mem_range, true_and, BitVec.toNat_ofNat]
  refine ⟨fun k hk => Nat.mod_eq_of_lt (by omega), fun a ha => ?_⟩
  have habove : image.length ≤ a.toNat := by
    by_contra hlt
    exact ha a.toNat (not_le.1 hlt) (by simp)
  rw [memRead_storeBytes_zero hl, List.getElem?_eq_none habove]
  rfl

/-! ## Sessions (R130 to R136) -/

/-- Settles O51: the three transactions, phase by phase. -/
theorem hostTransactionsAreAcceptedOnlyInTheirPhases : Obligations.HostTransactionsAreAcceptedOnlyInTheirPhases := by
  refine ⟨fun ⟨s, p⟩ => ?_, fun ⟨s, p⟩ => ?_, fun ⟨s, p⟩ => ?_⟩
  · cases p with
    | running => exact ⟨fun h => absurd rfl h, fun _ => rfl⟩
    | _ => exact ⟨fun _ => rfl, nofun⟩
  · cases p with
    | ready | loaded => exact ⟨fun _ => rfl, nofun, by simp⟩
    | ended => exact ⟨by simp, fun _ => ⟨rfl, rfl⟩, by simp⟩
    | neverReset | running => exact ⟨by simp, nofun, fun _ => rfl⟩
  · cases p with
    | neverReset | running => exact ⟨fun _ => rfl, by simp⟩
    | ready | loaded | ended => exact ⟨by simp, fun _ => rfl⟩

/-- The phase an accepted event leads to: `ready` after a reset only, and never the one before the first reset. -/
theorem phase_after_apply {e : SessionEvent} (h : c.apply opc e = .next d) :
    (e = .reset ∧ d.phase = .ready) ∨ d.phase = .loaded ∨ d.phase = .running ∨ d.phase = .ended := by
  rcases session_cases h with ⟨he, -, rfl⟩ | ⟨image, -, -, -, rfl⟩ | ⟨-, -, rfl⟩ | ⟨-, hp, rfl⟩ | ⟨-, -, t, -, rfl⟩
  · exact .inl ⟨he, rfl⟩
  · exact .inr (.inl rfl)
  · exact .inr (.inr (.inl rfl))
  · exact .inr (.inr (.inr hp))
  · rw [phaseAfterStep_eq]
    split
    · exact .inr (.inr (.inl rfl))
    · exact .inr (.inr (.inr rfl))

theorem phase_ne_ready_of_apply {e : SessionEvent} (he : e ≠ .reset) (h : c.apply opc e = .next d) :
    d.phase ≠ .ready := by
  rcases phase_after_apply h with ⟨hreset, -⟩ | hp | hp | hp
  · exact absurd hreset he
  all_goals simp [hp]

theorem phase_ne_neverReset_of_apply {e : SessionEvent} (h : c.apply opc e = .next d) : d.phase ≠ .neverReset := by
  rcases phase_after_apply h with ⟨-, hp⟩ | hp | hp | hp
  all_goals simp [hp]

/-- Settles O52: without a reset the phase `ready` is not entered (`phase_ne_ready_of_apply`), and only there is a load
accepted (`load_refused`). -/
theorem noSecondLoadAndNoneAfterTheRunStarts : Obligations.NoSecondLoadAndNoneAfterTheRunStarts := by
  intro opc c d f e es he h htrace hno image
  have hd : d.phase ≠ .ready := phase_ne_ready_of_apply (by rcases he with rfl | ⟨_, rfl⟩ <;> exact nofun) h
  have hf : f.phase ≠ .ready := htrace.keeps (P := fun g => g.phase ≠ .ready) hd fun e' he' _ _ _ hstep =>
    phase_ne_ready_of_apply (fun hreset => hno (hreset ▸ he')) hstep
  exact load_refused hf image

theorem step_of_running (h : cycle opc s = .next t) :
    Session.step opc ⟨s, .running⟩ = .next ⟨t, phaseAfterStep t⟩ := by
  rw [Session.step, h]

theorem step_of_not_running (h : c.phase ≠ .running) : c.step opc = .refused .notRunning := by
  obtain ⟨s, p⟩ := c
  cases p with
  | running => exact absurd rfl h
  | _ => rfl

theorem session_runFor_of_not_running (h : c.phase ≠ .running) (k : Nat) : c.runFor opc k = c := by
  cases k with
  | zero => rfl
  | succ k => rw [Session.runFor, step_of_not_running h]

/-- The run of a session is the run of its core, cut at the same number of steps. -/
theorem session_runFor_eq (k : Nat) (hn : s.hr = .none) :
    Session.runFor opc k ⟨s, .running⟩ = ⟨runFor opc k s, phaseAfterStep (runFor opc k s)⟩ := by
  induction k generalizing s with
  | zero => rw [Session.runFor, runFor, phaseAfterStep_eq, if_pos hn]
  | succ k ih =>
    obtain ⟨t, ht⟩ := exists_cycle_eq_next (opc := opc) hn
    rw [runFor_succ_of_next ht, Session.runFor, step_of_running ht]
    by_cases hr : t.hr = .none
    · rw [phaseAfterStep_eq t, if_pos hr]
      exact ih hr
    · rw [runFor_of_terminal hr]
      exact session_runFor_of_not_running (by rw [phaseAfterStep_eq, if_neg hr]; exact nofun) k

/-- Settles O53, from `step_of_running`, `step_of_not_running` and `session_runFor_eq`. -/
theorem theRunOfASessionIsTheRunOfItsCore : Obligations.TheRunOfASessionIsTheRunOfItsCore := by
  refine ⟨fun opc s t h => ?_, fun opc c => step_of_not_running, fun opc s k hn => ?_⟩
  · rw [step_of_running h, phaseAfterStep_eq]
  · rw [session_runFor_eq k hn, phaseAfterStep_eq]

/-- A session that was loaded meets the invariant of its phase. -/
theorem sessionInv_loaded (image : List Byte) : SessionInv ⟨State.reset.storeBytes image 0, .loaded⟩ := by
  have hw := State.wf_storeBytes image 0 State.reset Memory.wf_nil
  rw [storeBytes_eq_withMem]
  exact ⟨coreInv_reset_withMem hw, _, rfl⟩

/-- A session ready to run meets the invariant, and its core is running. -/
theorem SessionInv.coreInv_and_hr (h : SessionInv c) (hp : c.phase = .ready ∨ c.phase = .loaded) :
    CoreInv c.core ∧ c.core.hr = .none := by
  obtain ⟨s, p⟩ := c
  rcases hp with rfl | rfl
  · obtain rfl : s = State.reset := h
    exact ⟨invariantHoldsAtReset, rfl⟩
  · obtain ⟨hinv, mem, rfl⟩ := h
    exact ⟨hinv, rfl⟩

/-- Every accepted event keeps the invariant of the session's phase. -/
theorem sessionInv_of_apply {e : SessionEvent} (hc : SessionInv c) (h : c.apply opc e = .next d) : SessionInv d := by
  rcases session_cases h with
    ⟨-, -, rfl⟩ | ⟨image, -, hp, -, rfl⟩ | ⟨-, hp, rfl⟩ | ⟨-, -, rfl⟩ | ⟨-, hp, t, ht, rfl⟩
  · rfl
  · obtain ⟨s, p⟩ := c
    obtain rfl : p = .ready := hp
    obtain rfl : s = State.reset := hc
    exact sessionInv_loaded image
  · exact hc.coreInv_and_hr hp
  · exact hc
  · obtain ⟨s, p⟩ := c
    obtain rfl : p = .running := hp
    have hinv : CoreInv t := coreInv_of_cycle hc.1 ht
    rw [phaseAfterStep_eq]
    split
    · next hn => exact ⟨hinv, hn⟩
    · next hn => exact ⟨hinv, hn⟩

/-- Settles O55, by `sessionInv_of_apply`. -/
theorem everyTransactionAndStepKeepsTheSessionInvariant : Obligations.EveryTransactionAndStepKeepsTheSessionInvariant :=
  fun _ _ _ _ => sessionInv_of_apply

theorem Steps.coreInv (h : Steps opc s t) (hs : CoreInv s) : CoreInv t := by
  induction h with
  | refl s => exact hs
  | head hc _ ih => exact ih (coreInv_of_cycle hs hc)

/-- Settles O50: the loaded core meets the invariant (`sessionInv_loaded`), and steps keep it. -/
theorem everyStateARunReachesMeetsTheInvariant : Obligations.EveryStateARunReachesMeetsTheInvariant := by
  intro opc image c t hload hsteps
  obtain ⟨-, -, rfl⟩ := load_eq_next hload
  exact hsteps.coreInv (sessionInv_loaded image).1

/-! ## From power-up (R131) -/

/-- Once past the phase before the first reset, the invariant of the phase includes that of the core. -/
theorem SessionInv.coreInv (h : SessionInv c) (hp : c.phase ≠ .neverReset) : CoreInv c.core := by
  obtain ⟨s, p⟩ := c
  cases p with
  | neverReset => exact absurd rfl hp
  | ready | loaded => exact (h.coreInv_and_hr (by simp)).1
  | running | ended => exact h.1

/-- Before the first reset only a reset is accepted. -/
theorem eq_reset_of_apply_neverReset {e : SessionEvent} (hp : c.phase = .neverReset) (h : c.apply opc e = .next d) :
    e = .reset := by
  rcases session_cases h with ⟨he, -⟩ | ⟨image, -, hp', -⟩ | ⟨-, hp' | hp', -⟩ | ⟨-, hp', -⟩ | ⟨-, hp', -⟩
  · exact he
  all_goals exact nomatch hp.symm.trans hp'

/-- Settles O56: the events keep the invariant of the phase (`sessionInv_of_apply`), the first of them must be a reset,
and after it the phase is never again the one before. -/
theorem everySessionFromPowerUpMeetsItsInvariant : Obligations.EverySessionFromPowerUpMeetsItsInvariant := by
  intro opc es s c h
  have hinv : SessionInv c := h.keeps (P := SessionInv) trivial fun _ _ _ _ => sessionInv_of_apply
  cases h with
  | nil => exact ⟨hinv, nofun, fun _ => ⟨rfl, rfl⟩⟩
  | cons hfirst hrest =>
    have hp : c.phase ≠ .neverReset := hrest.keeps (P := fun d => d.phase ≠ .neverReset)
      (phase_ne_neverReset_of_apply hfirst) fun _ _ _ _ _ => phase_ne_neverReset_of_apply
    refine ⟨hinv, fun _ => hinv.coreInv hp, fun hno => ?_⟩
    exact absurd (eq_reset_of_apply_neverReset rfl hfirst ▸ List.mem_cons_self) hno

end Sys2Proof.Machine
end
